-- ==== Sys2Proof/Word.lean ====
section
/-!
DEFINITION. The word types of the Z16 core (spec 00_scope.md R6, R9, R13): 16-bit registers, addresses and instruction
words, 8-bit memory bytes, 3-bit register indexes. The signed reading `s16` of a word is `BitVec.toInt`, the unsigned
one `BitVec.toNat`, and `u16` of an integer is `BitVec.ofInt 16` (R9).
-/

namespace Sys2Proof

/-- A 16-bit register value, program counter or instruction word (R6, R9). -/
abbrev Word := BitVec 16

/-- One byte of memory (R9). -/
abbrev Byte := BitVec 8

/-- A register index 0..7, as an instruction field holds it (R13). -/
abbrev Reg := BitVec 3

end Sys2Proof
end

