-- ==== Sys2Proof/Config.lean ====
section
/-!
DEFINITION. The open parameters of the hardware (spec 00_scope.md R7: "each of which a model takes as an argument"):
`FUNCT_TABLE`, `SERVICE_MAP`, `A0_INDEX` and `EXEC_FORBIDDEN`, as plain data; and the one value the spec leaves to the
host inside a step, the ReadChar reply, as a constant without a body. The spec's default values of the parameters stand
in Decode.lean (`defaultFunctTable`) and Machine/Params.lean (`defaultConfig`).
-/

namespace Sys2Proof

/-- The R-type operations a (funct4, funct3) pair can select (R79). -/
inductive ROp where
  | add | sub | slt | sltu | sll | srl | sra | or | and | xor | mv | jr | jalr
  deriving DecidableEq, Repr

/-- The I-type operations that take the 7-bit immediate, selected by funct3 (R80). -/
inductive IOp where
  | addi | slti | sltiu | ori | andi | xori | li
  deriving DecidableEq, Repr

/-- The shift-immediate operations, selected by funct3 and the shift selector `w[15:13]` together (R64, R80). -/
inductive ShiftOp where
  | slli | srli | srai
  deriving DecidableEq, Repr

/-- The B-type operations, selected by funct3 (R81). -/
inductive BOp where
  | beq | bne | bz | bnz | blt | bge | bltu | bgeu
  deriving DecidableEq, Repr

/-- The S-type operations, selected by funct3 (R82). -/
inductive SOp where
  | sb | sw
  deriving DecidableEq, Repr

/-- The L-type operations, selected by funct3 (R83). -/
inductive LOp where
  | lb | lw | lbu
  deriving DecidableEq, Repr

/-- The J-type operations, selected by the link flag `w[15]` (R84). -/
inductive JOp where
  | j | jal
  deriving DecidableEq, Repr

/-- The U-type operations, selected by the flag `w[15]` (R85). -/
inductive UOp where
  | lui | auipc
  deriving DecidableEq, Repr

/-- The parameter `FUNCT_TABLE` (R7, D1): the rows of R79 to R85, each a function code and the operation it selects. A
code that no row holds is illegal (R87), so a table may leave any operation out. A shift row's code is its funct3 and its
selector. The code of `ecall` is no parameter: the source fixes it ("funct3 must be 0", R86). -/
structure FunctTable where
  r     : List ((BitVec 4 × BitVec 3) × ROp)
  i     : List (BitVec 3 × IOp)
  shift : List ((BitVec 3 × BitVec 3) × ShiftOp)
  b     : List (BitVec 3 × BOp)
  s     : List (BitVec 3 × SOp)
  l     : List (BitVec 3 × LOp)
  j     : List (Bool × JOp)
  u     : List (Bool × UOp)
  deriving DecidableEq, Repr

/-- The services an `ecall` can select (R7, R155). -/
inductive Service where
  | printChar | readChar | printString | printInt | exit
  deriving DecidableEq, Repr

/-- The parameters of R7. `services` lists the service codes beside `0x3FF`, which is Exit in every configuration
(R7: "only `0x3FF -> Exit` is fixed by the source"; DEDUCED, log 3, safe). -/
structure Config where
  functs        : FunctTable
  services      : List (BitVec 10 × Service)
  a0            : Reg
  execForbidden : List Word
  deriving DecidableEq, Repr

/-- FREE VALUE (R159, D18, I5, I6; DESIGN CHOICE, log 7, safe): the host's `n`-th reply to a ReadChar
request, beyond the replies that a state already holds. `some v` is any 16-bit value the host chooses; `none` is a host that never replies. It has no
body: nothing can evaluate it or prove a value of it. -/
opaque Config.hostReply : Nat → Option Word

end Sys2Proof
end

