-- ==== Sys2Proof/Syntax.lean ====
section
/-!
DEFINITION. The 41 instructions of spec/opcode_table.json, one constructor per row, with the operands that the decoder
hands to the executor (spec 30_encoding.md R78: `rd`, `rs2`, the format's immediate as a 16-bit value, `shamt`, `svc`).
A field an instruction does not use (R88: `rs2` of jr, bz and bnz; `rd` of j) is no operand of it.
-/

namespace Sys2Proof

/-- An instruction. Register operands are the fields `rd`/`rs1` = `w[8:6]` and `rs2` = `w[11:9]` (R13); `imm` and `off`
are the assembled, sign-extended 16-bit immediates of R71 to R76. -/
inductive Instr where
  -- R-type (41_r_type.md): rd := rd OP rs2
  | add  (rd rs2 : Reg)
  | sub  (rd rs2 : Reg)
  | slt  (rd rs2 : Reg)
  | sltu (rd rs2 : Reg)
  | sll  (rd rs2 : Reg)
  | srl  (rd rs2 : Reg)
  | sra  (rd rs2 : Reg)
  | or   (rd rs2 : Reg)
  | and  (rd rs2 : Reg)
  | xor  (rd rs2 : Reg)
  | mv   (rd rs2 : Reg)
  | jr   (rd : Reg)
  | jalr (rd rs2 : Reg)
  -- I-type (42_i_type.md): rd := rd OP imm
  | addi  (rd : Reg) (imm : Word)
  | slti  (rd : Reg) (imm : Word)
  | sltiu (rd : Reg) (imm : Word)
  | slli  (rd : Reg) (shamt : BitVec 4)
  | srli  (rd : Reg) (shamt : BitVec 4)
  | srai  (rd : Reg) (shamt : BitVec 4)
  | ori   (rd : Reg) (imm : Word)
  | andi  (rd : Reg) (imm : Word)
  | xori  (rd : Reg) (imm : Word)
  | li    (rd : Reg) (imm : Word)
  -- B-type (43_b_type.md): off is the scaled byte offset
  | beq  (rs1 rs2 : Reg) (off : Word)
  | bne  (rs1 rs2 : Reg) (off : Word)
  | bz   (rs1 : Reg) (off : Word)
  | bnz  (rs1 : Reg) (off : Word)
  | blt  (rs1 rs2 : Reg) (off : Word)
  | bge  (rs1 rs2 : Reg) (off : Word)
  | bltu (rs1 rs2 : Reg) (off : Word)
  | bgeu (rs1 rs2 : Reg) (off : Word)
  -- S-type (44_s_type.md): rs1 is the base, rs2 the data
  | sb (rs1 rs2 : Reg) (imm : Word)
  | sw (rs1 rs2 : Reg) (imm : Word)
  -- L-type (45_l_type.md): rs2 is the base
  | lb  (rd rs2 : Reg) (imm : Word)
  | lw  (rd rs2 : Reg) (imm : Word)
  | lbu (rd rs2 : Reg) (imm : Word)
  -- J-type (46_j_type.md)
  | j   (off : Word)
  | jal (rd : Reg) (off : Word)
  -- U-type (47_u_type.md): imm is u9 << 7
  | lui   (rd : Reg) (imm : Word)
  | auipc (rd : Reg) (imm : Word)
  -- SYS (48_sys.md)
  | ecall (svc : BitVec 10)
  deriving DecidableEq, Repr

end Sys2Proof
end

