-- ==== Sys2Proof/WellFormed.lean ====
section
/-!
DEFINITION. Which instructions an encoding can hold: the ranges that spec 30_encoding.md section 4 gives each
immediate (R71, R73, R74, R75, R76). Register, `shamt` and `svc` operands have their field's width as their type.
-/

namespace Sys2Proof

/-- R71: the I-type immediate is in -64..63. -/
def fitsI (imm : Word) : Bool := decide (-64 ≤ imm.toInt) && decide (imm.toInt ≤ 63)

/-- R73: the branch offset is even and in -16..+14. -/
def fitsB (off : Word) : Bool :=
  decide (-16 ≤ off.toInt) && decide (off.toInt ≤ 14) && decide (off.toInt % 2 = 0)

/-- R74: the load or store offset is in -8..+7. -/
def fitsSL (imm : Word) : Bool := decide (-8 ≤ imm.toInt) && decide (imm.toInt ≤ 7)

/-- R75: the jump offset is even and in -512..+510. -/
def fitsJ (off : Word) : Bool :=
  decide (-512 ≤ off.toInt) && decide (off.toInt ≤ 510) && decide (off.toInt % 2 = 0)

/-- R76: the upper immediate has its low 7 bits zero. -/
def fitsU (imm : Word) : Bool := decide (imm.toNat % 128 = 0)

/-- An instruction whose every operand is a value that its encoding admits. -/
def Instr.wellFormed : Instr → Bool
  | .add _ _ | .sub _ _ | .slt _ _ | .sltu _ _ | .sll _ _ | .srl _ _ | .sra _ _ => true
  | .or _ _ | .and _ _ | .xor _ _ | .mv _ _ | .jr _ | .jalr _ _ => true
  | .addi _ imm | .slti _ imm | .sltiu _ imm => fitsI imm
  | .ori _ imm | .andi _ imm | .xori _ imm | .li _ imm => fitsI imm
  | .slli _ _ | .srli _ _ | .srai _ _ => true
  | .beq _ _ off | .bne _ _ off | .blt _ _ off | .bge _ _ off | .bltu _ _ off | .bgeu _ _ off => fitsB off
  | .bz _ off | .bnz _ off => fitsB off
  | .sb _ _ imm | .sw _ _ imm | .lb _ _ imm | .lw _ _ imm | .lbu _ _ imm => fitsSL imm
  | .j off | .jal _ off => fitsJ off
  | .lui _ imm | .auipc _ imm => fitsU imm
  | .ecall _ => true

end Sys2Proof
end

