-- ==== Sys2Proof/Decode.lean ====
section
/-!
DEFINITION. The instruction decoder of spec 30_encoding.md: the field extractors (R13, R62 to R70), the one
sign-extension unit (R71 to R77, R104) that the executor and the disassembler share, the default function codes
(R79 to R86), the total decoder (R78, R87, R88), and after it the encoder, written from the same tables.
-/

namespace Sys2Proof

/-! ### Fields (R13, R62 to R70) -/

/-- The eight formats of R62. -/
inductive Format where
  | r | i | b | s | l | j | u | sys
  deriving DecidableEq, Repr

def opField (w : Word) : BitVec 3 := w.extractLsb' 0 3
def funct3 (w : Word) : BitVec 3 := w.extractLsb' 3 3
def rdField (w : Word) : Reg := w.extractLsb' 6 3
def rs2Field (w : Word) : Reg := w.extractLsb' 9 3
def funct4 (w : Word) : BitVec 4 := w.extractLsb' 12 4

/-- The shift-type selector `w[15:13]` (R64, R72). -/
def selField (w : Word) : BitVec 3 := w.extractLsb' 13 3

/-- The shift amount `w[12:9]` (R64, R72). -/
def shamtField (w : Word) : BitVec 4 := w.extractLsb' 9 4

/-- The link flag of a J word and the flag of a U word, `w[15]` (R68, R69). -/
def flagBit (w : Word) : Bool := w.getLsbD 15

/-- The service code `w[15:6]` (R77). -/
def svcField (w : Word) : BitVec 10 := w.extractLsb' 6 10

/-- The 9-bit field `u9 = w[14:9] ++ w[5:3]` (R76). -/
def u9Field (w : Word) : BitVec 9 := w.extractLsb' 9 6 ++ w.extractLsb' 3 3

/-- The format is "selected by `opcode = word & 0x7`" (R62). -/
def formatOf (w : Word) : Format :=
  match (opField w).toNat with
  | 0 => .r
  | 1 => .i
  | 2 => .b
  | 3 => .s
  | 4 => .l
  | 5 => .j
  | 6 => .u
  | _ => .sys

/-! ### The sign-extension unit (R71 to R76, R104) -/

/-- `imm_I = sext_7(w[15:9])` (R71). -/
def immI (w : Word) : Word := (w.extractLsb' 9 7).signExtend 16

/-- `imm_B = sext_5(w[15:12] ++ 0)` (R73). -/
def immB (w : Word) : Word := (w.extractLsb' 12 4 ++ 0#1).signExtend 16

/-- `imm_S = imm_L = sext_4(w[15:12])` (R74). -/
def immSL (w : Word) : Word := (w.extractLsb' 12 4).signExtend 16

/-- `imm_J = sext_10(w[14:9] ++ w[5:3] ++ 0)` (R75). -/
def immJ (w : Word) : Word := (w.extractLsb' 9 6 ++ w.extractLsb' 3 3 ++ 0#1).signExtend 16

/-- `imm_U = w[14:9] ++ w[5:3] ++ 0^7` (R76). -/
def immU (w : Word) : Word := u9Field w ++ 0#7

/-! ### Function codes (R79 to R86) -/

/-- The default `FUNCT_TABLE`: the values of R79 to R85 (PRESUMED, log 1, unsafe). -/
def defaultFunctTable : FunctTable where
  r := [((0b0000, 0b000), .add), ((0b0001, 0b000), .sub), ((0b0010, 0b001), .slt), ((0b0011, 0b010), .sltu),
        ((0b0100, 0b011), .sll), ((0b0101, 0b011), .srl), ((0b0110, 0b011), .sra), ((0b0111, 0b100), .or),
        ((0b1000, 0b101), .and), ((0b1001, 0b110), .xor), ((0b1010, 0b111), .mv), ((0b1011, 0b000), .jr),
        ((0b1100, 0b000), .jalr)]
  i := [(0b000, .addi), (0b001, .slti), (0b010, .sltiu), (0b100, .ori), (0b101, .andi), (0b110, .xori),
        (0b111, .li)]
  shift := [((0b011, 0b001), .slli), ((0b011, 0b010), .srli), ((0b011, 0b100), .srai)]
  b := [(0b000, .beq), (0b001, .bne), (0b010, .bz), (0b011, .bnz), (0b100, .blt), (0b101, .bge), (0b110, .bltu),
        (0b111, .bgeu)]
  s := [(0b000, .sb), (0b001, .sw)]
  l := [(0b000, .lb), (0b001, .lw), (0b100, .lbu)]
  j := [(false, .j), (true, .jal)]
  u := [(false, .lui), (true, .auipc)]

/-- An R-type operation on its fields; `jr` leaves `rs2` out (R88). -/
def ROp.instr (rd rs2 : Reg) : ROp → Instr
  | .add => .add rd rs2
  | .sub => .sub rd rs2
  | .slt => .slt rd rs2
  | .sltu => .sltu rd rs2
  | .sll => .sll rd rs2
  | .srl => .srl rd rs2
  | .sra => .sra rd rs2
  | .or => .or rd rs2
  | .and => .and rd rs2
  | .xor => .xor rd rs2
  | .mv => .mv rd rs2
  | .jr => .jr rd
  | .jalr => .jalr rd rs2

/-- An I-type operation on its fields. -/
def IOp.instr (rd : Reg) (imm : Word) : IOp → Instr
  | .addi => .addi rd imm
  | .slti => .slti rd imm
  | .sltiu => .sltiu rd imm
  | .ori => .ori rd imm
  | .andi => .andi rd imm
  | .xori => .xori rd imm
  | .li => .li rd imm

/-- A shift-immediate operation on its fields. -/
def ShiftOp.instr (rd : Reg) (shamt : BitVec 4) : ShiftOp → Instr
  | .slli => .slli rd shamt
  | .srli => .srli rd shamt
  | .srai => .srai rd shamt

/-- A B-type operation on its fields; `bz` and `bnz` leave `rs2` out (R88). -/
def BOp.instr (rs1 rs2 : Reg) (off : Word) : BOp → Instr
  | .beq => .beq rs1 rs2 off
  | .bne => .bne rs1 rs2 off
  | .bz => .bz rs1 off
  | .bnz => .bnz rs1 off
  | .blt => .blt rs1 rs2 off
  | .bge => .bge rs1 rs2 off
  | .bltu => .bltu rs1 rs2 off
  | .bgeu => .bgeu rs1 rs2 off

/-- An S-type operation on its fields: base in `w[8:6]`, data in `w[11:9]` (R66). -/
def SOp.instr (rs1 rs2 : Reg) (imm : Word) : SOp → Instr
  | .sb => .sb rs1 rs2 imm
  | .sw => .sw rs1 rs2 imm

/-- An L-type operation on its fields: destination in `w[8:6]`, base in `w[11:9]` (R67, C7). -/
def LOp.instr (rd rs2 : Reg) (imm : Word) : LOp → Instr
  | .lb => .lb rd rs2 imm
  | .lw => .lw rd rs2 imm
  | .lbu => .lbu rd rs2 imm

/-- A J-type operation on its fields; `j` leaves `rd` out (R88). -/
def JOp.instr (rd : Reg) (off : Word) : JOp → Instr
  | .j => .j off
  | .jal => .jal rd off

/-- A U-type operation on its fields. -/
def UOp.instr (rd : Reg) (imm : Word) : UOp → Instr
  | .lui => .lui rd imm
  | .auipc => .auipc rd imm

/-! ### The decoder (R78) -/

/-- Why a decoding fails. -/
inductive DecodeError where
  /-- `DecodeError(w)`: no row of the function table matches the word (R87). -/
  | illegal (w : Word)
  /-- fewer than the two bytes of an instruction word (R61); a fetch never meets it. -/
  | truncated
  deriving DecidableEq, Repr

/-- The row a function-code lookup found, or `DecodeError(w)` where it found none (R87). -/
def orIllegal (w : Word) : Option Instr → Except DecodeError Instr
  | some i => .ok i
  | none => .error (.illegal w)

/-- The I-type row that a word matches (R80): by funct3 alone for an operation on the immediate, else by funct3 and the
selector for a shift. -/
def iRow (t : FunctTable) (w : Word) : Option Instr :=
  match t.i.lookup (funct3 w) with
  | some op => some (IOp.instr (rdField w) (immI w) op)
  | none => (t.shift.lookup (funct3 w, selField w)).map (ShiftOp.instr (rdField w) (shamtField w))

/-- `decode(w)` (R78): "Pure function, no state mutation", total on every 16-bit word. -/
def decode (t : FunctTable) (w : Word) : Except DecodeError Instr :=
  match formatOf w with
  | .r => orIllegal w ((t.r.lookup (funct4 w, funct3 w)).map (ROp.instr (rdField w) (rs2Field w)))
  | .i => orIllegal w (iRow t w)
  | .b => orIllegal w ((t.b.lookup (funct3 w)).map (BOp.instr (rdField w) (rs2Field w) (immB w)))
  | .s => orIllegal w ((t.s.lookup (funct3 w)).map (SOp.instr (rdField w) (rs2Field w) (immSL w)))
  | .l => orIllegal w ((t.l.lookup (funct3 w)).map (LOp.instr (rdField w) (rs2Field w) (immSL w)))
  | .j => orIllegal w ((t.j.lookup (flagBit w)).map (JOp.instr (rdField w) (immJ w)))
  | .u => orIllegal w ((t.u.lookup (flagBit w)).map (UOp.instr (rdField w) (immU w)))
  | .sys => if funct3 w = 0b000 then .ok (.ecall (svcField w)) else .error (.illegal w)

/-- The instruction word whose low byte lies first (R44). -/
def wordOfBytes (lo hi : Byte) : Word := hi ++ lo

/-- Decoding a stream of bytes, each word little-endian (R44, R61): the instruction and the bytes after it. -/
def decodeBytes (t : FunctTable) : List Byte → Except DecodeError (Instr × List Byte)
  | lo :: hi :: rest =>
    match decode t (wordOfBytes lo hi) with
    | .ok i => .ok (i, rest)
    | .error e => .error e
  | _ => .error .truncated

/-- The host's question: what the decoder reads, under the default function table, from an instruction whose low
`nbits` bits are `w` and whose other bits are 0, laid out as the hardware stores it. -/
def decodeTableWord (nbits w : Nat) : Option Instr :=
  let word : Word := BitVec.ofNat 16 (w % 2 ^ nbits)
  match decodeBytes defaultFunctTable [word.extractLsb' 0 8, word.extractLsb' 8 8] with
  | .ok (i, _) => some i
  | .error _ => none

/-! ### The encoder, from the same tables -/

/-- R63. -/
def rWord (f4 : BitVec 4) (rs2 rd : Reg) (f3 : BitVec 3) : Word := f4 ++ rs2 ++ rd ++ f3 ++ 0b000#3

/-- R64, with the 7-bit field of R71. -/
def iWord (imm : Word) (rd : Reg) (f3 : BitVec 3) : Word := imm.extractLsb' 0 7 ++ rd ++ f3 ++ 0b001#3

/-- R64 with funct3 = 3 (R72). -/
def shiftWord (sel : BitVec 3) (shamt : BitVec 4) (rd : Reg) : Word := sel ++ shamt ++ rd ++ 0b011#3 ++ 0b001#3

/-- R65: bits 4:1 of the offset. -/
def bWord (off : Word) (rs2 rs1 : Reg) (f3 : BitVec 3) : Word := off.extractLsb' 1 4 ++ rs2 ++ rs1 ++ f3 ++ 0b010#3

/-- R66. -/
def sWord (imm : Word) (rs2 rs1 : Reg) (f3 : BitVec 3) : Word := imm.extractLsb' 0 4 ++ rs2 ++ rs1 ++ f3 ++ 0b011#3

/-- R67. -/
def lWord (imm : Word) (rs2 rd : Reg) (f3 : BitVec 3) : Word := imm.extractLsb' 0 4 ++ rs2 ++ rd ++ f3 ++ 0b100#3

/-- R68: bits 9:4 and 3:1 of the offset. -/
def jWord (link : BitVec 1) (off : Word) (rd : Reg) : Word :=
  link ++ off.extractLsb' 4 6 ++ rd ++ off.extractLsb' 1 3 ++ 0b101#3

/-- R69: bits 15:10 and 9:7 of the immediate. -/
def uWord (flag : BitVec 1) (imm : Word) (rd : Reg) : Word :=
  flag ++ imm.extractLsb' 10 6 ++ rd ++ imm.extractLsb' 7 3 ++ 0b110#3

/-- R70. -/
def sysWord (svc : BitVec 10) : Word := svc ++ 0b000#3 ++ 0b111#3

/-- The word of an instruction under the function codes of R79 to R86; a field the instruction does not use is 0. -/
def encode : Instr → Word
  | .add rd rs2 => rWord 0b0000 rs2 rd 0b000
  | .sub rd rs2 => rWord 0b0001 rs2 rd 0b000
  | .slt rd rs2 => rWord 0b0010 rs2 rd 0b001
  | .sltu rd rs2 => rWord 0b0011 rs2 rd 0b010
  | .sll rd rs2 => rWord 0b0100 rs2 rd 0b011
  | .srl rd rs2 => rWord 0b0101 rs2 rd 0b011
  | .sra rd rs2 => rWord 0b0110 rs2 rd 0b011
  | .or rd rs2 => rWord 0b0111 rs2 rd 0b100
  | .and rd rs2 => rWord 0b1000 rs2 rd 0b101
  | .xor rd rs2 => rWord 0b1001 rs2 rd 0b110
  | .mv rd rs2 => rWord 0b1010 rs2 rd 0b111
  | .jr rd => rWord 0b1011 0 rd 0b000
  | .jalr rd rs2 => rWord 0b1100 rs2 rd 0b000
  | .addi rd imm => iWord imm rd 0b000
  | .slti rd imm => iWord imm rd 0b001
  | .sltiu rd imm => iWord imm rd 0b010
  | .slli rd shamt => shiftWord 0b001 shamt rd
  | .srli rd shamt => shiftWord 0b010 shamt rd
  | .srai rd shamt => shiftWord 0b100 shamt rd
  | .ori rd imm => iWord imm rd 0b100
  | .andi rd imm => iWord imm rd 0b101
  | .xori rd imm => iWord imm rd 0b110
  | .li rd imm => iWord imm rd 0b111
  | .beq rs1 rs2 off => bWord off rs2 rs1 0b000
  | .bne rs1 rs2 off => bWord off rs2 rs1 0b001
  | .bz rs1 off => bWord off 0 rs1 0b010
  | .bnz rs1 off => bWord off 0 rs1 0b011
  | .blt rs1 rs2 off => bWord off rs2 rs1 0b100
  | .bge rs1 rs2 off => bWord off rs2 rs1 0b101
  | .bltu rs1 rs2 off => bWord off rs2 rs1 0b110
  | .bgeu rs1 rs2 off => bWord off rs2 rs1 0b111
  | .sb rs1 rs2 imm => sWord imm rs2 rs1 0b000
  | .sw rs1 rs2 imm => sWord imm rs2 rs1 0b001
  | .lb rd rs2 imm => lWord imm rs2 rd 0b000
  | .lw rd rs2 imm => lWord imm rs2 rd 0b001
  | .lbu rd rs2 imm => lWord imm rs2 rd 0b100
  | .j off => jWord 0 off 0
  | .jal rd off => jWord 1 off rd
  | .lui rd imm => uWord 0 imm rd
  | .auipc rd imm => uWord 1 imm rd
  | .ecall svc => sysWord svc

/-- The bits of an instruction's word that decoding ignores (R88): `rs2` of jr, bz and bnz, `rd` of j. -/
def dontCare : Instr → Word
  | .jr _ | .bz _ _ | .bnz _ _ => 0x0E00
  | .j _ => 0x01C0
  | .add _ _ | .sub _ _ | .slt _ _ | .sltu _ _ | .sll _ _ | .srl _ _ | .sra _ _ | .or _ _ | .and _ _ | .xor _ _ => 0
  | .mv _ _ | .jalr _ _ | .addi _ _ | .slti _ _ | .sltiu _ _ | .slli _ _ | .srli _ _ | .srai _ _ | .ori _ _ => 0
  | .andi _ _ | .xori _ _ | .li _ _ | .beq _ _ _ | .bne _ _ _ | .blt _ _ _ | .bge _ _ _ | .bltu _ _ _ => 0
  | .bgeu _ _ _ | .sb _ _ _ | .sw _ _ _ | .lb _ _ _ | .lw _ _ _ | .lbu _ _ _ | .jal _ _ | .lui _ _ => 0
  | .auipc _ _ | .ecall _ => 0

end Sys2Proof
end

