-- ==== Sys2Proof/Machine/Params.lean ====
section
/-!
DEFINITION. The default values of the open parameters (spec 00_scope.md R7), which the machine has at reset, and how the
service map is read.
-/

namespace Sys2Proof.Machine

/-- The code of the exit service, the only one the source fixes (R7, R157). -/
def exitCode : BitVec 10 := 0x3FF

/-- The defaults of R7: the function codes of R79 to R86 (PRESUMED, log 1, unsafe), no service beside Exit (log 3), `a0 = x6` (PRESUMED, log 2, unsafe) and
an empty `EXEC_FORBIDDEN` (DEDUCED, log 4, unsafe). -/
def defaultConfig : Config where
  functs := defaultFunctTable
  services := []
  a0 := 6
  execForbidden := []

/-- `SERVICE_MAP(svc)` (R155, R156): `0x3FF` is Exit in every configuration, and every other code is unmapped unless the
configuration maps it (R7; DEDUCED, log 3, safe). -/
def serviceOf (c : Config) (svc : BitVec 10) : Option Service :=
  if svc = exitCode then some .exit else c.services.lookup svc

end Sys2Proof.Machine
end

