-- ==== Sys2Proof/Machine/State.lean ====
section
/-!
DEFINITION. The state of the machine (spec 10_state.md R18 to R39) as plain data, the reasons a step can stop, and the
state right after reset (R39, R203, R204).
-/

namespace Sys2Proof.Machine

/-- The four fatal error kinds (R183). -/
inductive FaultReason where
  | decodeError | alignmentError | boundsError | unknownServiceError
  deriving DecidableEq, Repr

/-- The fault record `f = (reason, fault_pc, fault_addr)` (R30); `faultAddr` is an integer, since an effective address or
a next PC may lie below 0 or above 0xFFFF. -/
structure FaultRecord where
  reason    : FaultReason
  faultPc   : Word
  faultAddr : Int
  deriving DecidableEq, Repr

/-- The run status, the only control and status state (R29). -/
inductive Status where
  | running
  | halted
  | faulted (f : FaultRecord)
  deriving DecidableEq, Repr

/-- A request a step hands to the host (R36). -/
inductive Request where
  | printChar (c : Byte)
  | readChar
  | printString (bytes : List Byte)
  | printInt (n : Int)
  deriving DecidableEq, Repr

/-- Memory: the bytes that differ from what an unlisted address reads as, by rising address. -/
abbrev Memory := List Host.Cell

/-- The whole state. `regs`, `pc`, `mem` and `status` are the spec's (R39). `cfg` holds the parameters of R7, which no
step changes (DESIGN CHOICE, log 5, safe). `requests`, `replies` and `draws` are the model's own record of the exchange with the host (R36):
the requests handed over so far, oldest first (DESIGN CHOICE, log 8, safe); the ReadChar replies the host has fixed in advance, oldest first;
and how many replies were drawn from the free value `Config.hostReply` (DESIGN CHOICE, log 7, safe). -/
structure State where
  regs     : Vector Word 8
  pc       : Word
  mem      : Memory
  status   : Status
  cfg      : Config
  requests : List Request
  replies  : List Word
  draws    : Nat
  deriving DecidableEq, Repr

/-- Why the machine gets stuck. The four faults of R183 are none of these: entering `Faulted` is a next state (R190). -/
inductive Fault where
  /-- Raised by `ecall` of a ReadChar service whose request the host never answers: "a host that never replies leaves
  the step with no move (the core is stuck in that step; nothing is committed)" (R159, I6). Safe: it happens only where
  the free value `Config.hostReply` has no reply, which no proof can know. -/
  | hostNeverReplies
  deriving DecidableEq, Repr

/-- Why the model has no meaning for an instruction. -/
inductive Refusal where
  /-- Answered by an arm of `exec` whose instruction has no meaning yet; no arm does. Safe. -/
  | notModelled (mnemonic : String)
  deriving DecidableEq, Repr

/-- The state after `reset()` and of a newly created machine (R39, R203, R204): every register, every byte of memory and
the pc 0, the status Running; the parameters at the defaults of R7; nothing exchanged with the host yet (log 7, 8). -/
def State.reset : State where
  regs := Vector.replicate 8 0
  pc := 0
  mem := []
  status := .running
  cfg := defaultConfig
  requests := []
  replies := []
  draws := 0

end Sys2Proof.Machine
end

