-- ==== Sys2Proof/Machine/Ops.lean ====
section
/-!
DEFINITION. The named operations over registers and memory (spec 10_state.md, 20_memory.md), taking a fault (60_exceptions.md
R190), the PC mux with its range check (40_datapath.md R110, R111), and the commit of an instruction's effect (R96, R100).
-/

namespace Sys2Proof.Machine

/-- What a step answers. -/
abbrev Result := Host.Outcome State Fault Refusal

/-! ### Registers (R18 to R20) -/

/-- `x[r]` as a read port returns it. -/
def State.reg (s : State) (r : Reg) : Word := s.regs[r.toNat]'(r.isLt)

/-- The register file with `x[r] <- v` done. -/
def setReg (regs : Vector Word 8) (r : Reg) (v : Word) : Vector Word 8 := regs.set r.toNat v r.isLt

/-! ### Memory (R32, R41 to R47) -/

/-- What a byte that nothing has written reads as: memory is zero-initialized (R32, R203; DEDUCED, log 13, safe). -/
def unlistedByte : Byte := 0

/-- `M[a]`. -/
def Memory.read : Memory → Nat → Byte
  | [], _ => unlistedByte
  | c :: rest, a => if c.1 = a then c.2 else Memory.read rest a

/-- Memory without an entry at `a`. -/
def Memory.erase (m : Memory) (a : Nat) : Memory := m.filter fun c => decide (c.1 ≠ a)

/-- Memory with the entry `(a, b)` put before the first higher address. -/
def Memory.insert (a : Nat) (b : Byte) : Memory → Memory
  | [] => [(a, b)]
  | c :: rest => if a < c.1 then (a, b) :: c :: rest else c :: Memory.insert a b rest

/-- `M[a] <- b`, in the canonical form: writing what an unlisted address reads as leaves no entry. -/
def Memory.write (m : Memory) (a : Nat) (b : Byte) : Memory :=
  if b = unlistedByte then m.erase a else (m.erase a).insert a b

/-- The canonical form: addresses strictly rising and below 65536 (R41), no entry equal to an unlisted byte. -/
abbrev Memory.wf (m : Memory) : Prop :=
  m.Pairwise (fun c d => c.1 < d.1) ∧ ∀ c ∈ m, c.1 < 65536 ∧ c.2 ≠ unlistedByte

/-- `MemRead(a, 2)`: `M[a] + 256 * M[a+1]` (R43 to R45). -/
def Memory.readWord (m : Memory) (a : Nat) : Word := wordOfBytes (m.read a) (m.read (a + 1))

/-- `MemWrite(a, 2, v)`: `M[a] <- v[7:0]`, `M[a+1] <- v[15:8]` (R43, R46). -/
def Memory.writeWord (m : Memory) (a : Nat) (v : Word) : Memory :=
  (m.write a (v.extractLsb' 0 8)).write (a + 1) (v.extractLsb' 8 8)

/-- Consecutive bytes written from `a` up, as `load` does (R205). -/
def Memory.writeBytes (m : Memory) (a : Nat) : List Byte → Memory
  | [] => m
  | b :: rest => Memory.writeBytes (m.write a b) (a + 1) rest

/-- The bytes from `a` up to but not including the first zero byte, looking at no more than `fuel` bytes; none where they
hold no zero byte (R160). -/
def Memory.readString (m : Memory) (a : Nat) : Nat → Option (List Byte)
  | 0 => none
  | fuel + 1 =>
    if m.read a = 0 then some [] else (Memory.readString m (a + 1) fuel).map (m.read a :: ·)

/-! ### Taking a fault (R100, R190) -/

/-- `raise E(info)`: nothing of the step is committed, and the status becomes `Faulted(reason, pc, addr)` (R12, R100,
R190). The fault is a next state (DEDUCED, log 6, safe). There is no handler, no vector and no return (R191). -/
def raise (s : State) (reason : FaultReason) (addr : Int) : State :=
  { s with status := .faulted { reason := reason, faultPc := s.pc, faultAddr := addr } }

/-! ### The effect of an instruction, and its commit (R96, R100, R110, R111) -/

/-- The four sources of the PC mux (R110). -/
inductive NextPc where
  | seq
  | rel (off : Word)
  | abs (v : Word)
  | stay
  deriving DecidableEq, Repr

/-- The next PC, as an integer (R110). -/
def pcMux (pc : Word) : NextPc → Int
  | .seq => pc.toNat + 2
  | .rel off => pc.toNat + off.toInt
  | .abs v => v.toNat
  | .stay => pc.toNat

/-- The bytes a store writes (R109). -/
inductive Store where
  | byte (a : Nat) (v : Byte)
  | word (a : Nat) (v : Word)
  deriving DecidableEq, Repr

/-- `MemWrite` of the commit (R46). -/
def Memory.store (m : Memory) : Store → Memory
  | .byte a v => m.write a v
  | .word a v => m.writeWord a v

/-- The effect `E` of an instruction (R96): at most one register, at most one store, where the pc goes, whether the
machine halts, the request handed to the host, and whether a host reply is used up. -/
structure Effect where
  wreg       : Option (Reg × Word) := none
  wmem       : Option Store := none
  next       : NextPc := .seq
  halt       : Bool := false
  request    : Option Request := none
  takesReply : Bool := false
  deriving DecidableEq, Repr

/-- The reply the host gives to the next ReadChar: the first it has fixed in advance, or else a free value (R159). -/
def State.nextReply (s : State) : Option Word :=
  match s.replies with
  | r :: _ => some r
  | [] => Config.hostReply s.draws

/-- Step 7 of R96: every write of the effect, and the next pc, together (R100). -/
def commit (s : State) (e : Effect) (pc : Word) : State where
  regs := match e.wreg with
    | some (r, v) => setReg s.regs r v
    | none => s.regs
  pc := pc
  mem := match e.wmem with
    | some st => s.mem.store st
    | none => s.mem
  status := if e.halt then .halted else s.status
  cfg := s.cfg
  requests := match e.request with
    | some q => s.requests ++ [q]
    | none => s.requests
  replies := if e.takesReply then s.replies.tail else s.replies
  draws := if e.takesReply && s.replies.isEmpty then s.draws + 1 else s.draws

/-- The range check of R111. -/
def inPcRange (t : Int) : Bool := decide (0 ≤ t) && decide (t ≤ 0xFFFF)

/-- Steps 6 and 7 of R96: the next PC is selected and checked, then the effect is committed; out of range, the step raises
`BoundsError(t)` and commits nothing (R111). -/
def complete (s : State) (e : Effect) : Result :=
  if inPcRange (pcMux s.pc e.next) then .next (commit s e (BitVec.ofInt 16 (pcMux s.pc e.next)))
  else .next (raise s .boundsError (pcMux s.pc e.next))

end Sys2Proof.Machine
end

