-- ==== Sys2Proof/Machine/Flags.lean ====
section
/-!
DEFINITION. The core has no flags and no condition codes (spec 10_state.md R28): comparisons write 0 or 1 to a register,
and branches evaluate their predicate on register values. This file holds those comparisons (R106) and the branch
comparator (R107, R81).
-/

namespace Sys2Proof.Machine

/-- `s16(a) < s16(b)` (R9, R106). -/
def signedLess (a b : Word) : Bool := decide (a.toInt < b.toInt)

/-- `a < b` as values 0..65535 (R106). -/
def unsignedLess (a b : Word) : Bool := decide (a.toNat < b.toNat)

/-- "1 for true and 0 for false as a full 16-bit value" (R106). -/
def truthWord (p : Bool) : Word := if p then 0x0001 else 0x0000

/-- The predicates of R81. -/
inductive Cond where
  | eq | ne | zero | nonzero | lt | ge | ltu | geu
  deriving DecidableEq, Repr

/-- The branch comparator `cond(f3, a, b)` (R107). -/
def branchCond (c : Cond) (a b : Word) : Bool :=
  match c with
  | .eq => decide (a = b)
  | .ne => decide (a ≠ b)
  | .zero => decide (a = 0)
  | .nonzero => decide (a ≠ 0)
  | .lt => signedLess a b
  | .ge => !signedLess a b
  | .ltu => unsignedLess a b
  | .geu => !unsignedLess a b

end Sys2Proof.Machine
end

