-- ==== Sys2Proof/Machine/Alu.lean ====
section
/-!
DEFINITION. The ALU (spec 40_datapath.md R102 to R106).
-/

namespace Sys2Proof.Machine

/-- The operations of R102. -/
inductive AluOp where
  | add | sub | slt | sltu | sll | srl | sra | or | and | xor | passB
  deriving DecidableEq, Repr

/-- The shift amount `b[3:0]` (R105). -/
def shiftAmount (b : Word) : Nat := (b.extractLsb' 0 4).toNat

/-- `alu(op, a, b)` (R102); every result wraps modulo 65536 (R103). -/
def alu (op : AluOp) (a b : Word) : Word :=
  match op with
  | .add => a + b
  | .sub => a - b
  | .slt => truthWord (signedLess a b)
  | .sltu => truthWord (unsignedLess a b)
  | .sll => a <<< shiftAmount b
  | .srl => a >>> shiftAmount b
  | .sra => a.sshiftRight (shiftAmount b)
  | .or => a ||| b
  | .and => a &&& b
  | .xor => a ^^^ b
  | .passB => b

end Sys2Proof.Machine
end

