-- ==== Sys2Proof/Machine/Operands.lean ====
section
/-!
DEFINITION. The operand forms the instructions share: register and immediate operands of the ALU (spec 40_datapath.md
R101, R102), branches and jumps (R107, R110, R112), and the address adder with the load/store path (R108, R109,
20_memory.md R48 to R50).
-/

namespace Sys2Proof.Machine

/-- `rd := rd OP rs2` (R15, R102); both operands are read at the start of the step (R101). -/
def aluReg (op : AluOp) (rd rs2 : Reg) (s : State) : Result :=
  complete s { wreg := some (rd, alu op (s.reg rd) (s.reg rs2)) }

/-- `rd := rd OP imm`, with the immediate or the zero-extended shift amount as the second ALU operand (R102). -/
def aluImm (op : AluOp) (rd : Reg) (imm : Word) (s : State) : Result :=
  complete s { wreg := some (rd, alu op (s.reg rd) imm) }

/-- The link value `u16(pc + 2)` (R112). -/
def linkValue (s : State) : Word := s.pc + 2

/-- A conditional branch: `Rel(off)` where the predicate holds, else `Seq` (R107, R110). -/
def branch (c : Cond) (a b off : Word) (s : State) : Result :=
  complete s { next := if branchCond c a b then .rel off else .seq }

/-- The widths of a load or store (R51). -/
inductive Width where
  | byte | word
  deriving DecidableEq, Repr

/-- `ea = base + s16(imm)` as an integer, never reduced (R108). -/
def effectiveAddress (base imm : Word) : Int := base.toNat + imm.toInt

/-- The checks of a load or store: bounds first (R48), then the alignment of a word (R49, R50). -/
def checkAccess (width : Width) (ea : Int) : Except FaultReason Nat :=
  if ea < 0 ∨ 0xFFFF < ea then .error .boundsError
  else if width = .word ∧ ea % 2 = 1 then .error .alignmentError
  else .ok ea.toNat

/-- The load path (R109): after the checks, `rd` gets what `value` makes of memory at the address; a failed check raises
its fault and writes nothing. -/
def loadInto (rd : Reg) (width : Width) (ea : Int) (value : Memory → Nat → Word) (s : State) : Result :=
  match checkAccess width ea with
  | .ok a => complete s { wreg := some (rd, value s.mem a) }
  | .error reason => .next (raise s reason ea)

/-- The store path (R109): after the checks, the commit writes what `store` says; a failed check raises its fault and
writes nothing. -/
def storeAt (width : Width) (ea : Int) (store : Nat → Store) (s : State) : Result :=
  match checkAccess width ea with
  | .ok a => complete s { wmem := some (store a) }
  | .error reason => .next (raise s reason ea)

end Sys2Proof.Machine
end

