-- ==== Sys2Proof/Machine/BType.lean ====
section
/-!
DEFINITION. The B-type conditional branches (spec 43_b_type.md R138 to R145). `off` is the scaled byte offset (R73).
-/

namespace Sys2Proof.Machine

/-- R138: taken where `a = b`. -/
def execBeq (rs1 rs2 : Reg) (off : Word) (s : State) : Result := branch .eq (s.reg rs1) (s.reg rs2) off s

/-- R139: taken where `a != b`. -/
def execBne (rs1 rs2 : Reg) (off : Word) (s : State) : Result := branch .ne (s.reg rs1) (s.reg rs2) off s

/-- R140: taken where `a = 0`; the comparator uses `a` only (R107). -/
def execBz (rs1 : Reg) (off : Word) (s : State) : Result := branch .zero (s.reg rs1) 0 off s

/-- R141: taken where `a != 0`; the comparator uses `a` only (R107). -/
def execBnz (rs1 : Reg) (off : Word) (s : State) : Result := branch .nonzero (s.reg rs1) 0 off s

/-- R142: taken where `s16(a) < s16(b)`. -/
def execBlt (rs1 rs2 : Reg) (off : Word) (s : State) : Result := branch .lt (s.reg rs1) (s.reg rs2) off s

/-- R143: taken where `s16(a) >= s16(b)`. -/
def execBge (rs1 rs2 : Reg) (off : Word) (s : State) : Result := branch .ge (s.reg rs1) (s.reg rs2) off s

/-- R144: taken where `a < b`, unsigned. -/
def execBltu (rs1 rs2 : Reg) (off : Word) (s : State) : Result := branch .ltu (s.reg rs1) (s.reg rs2) off s

/-- R145: taken where `a >= b`, unsigned. -/
def execBgeu (rs1 rs2 : Reg) (off : Word) (s : State) : Result := branch .geu (s.reg rs1) (s.reg rs2) off s

end Sys2Proof.Machine
end

