-- ==== Sys2Proof/Machine/IType.lean ====
section
/-!
DEFINITION. The I-type instructions (spec 42_i_type.md R128 to R137). `imm` is already sign-extended (R71).
-/

namespace Sys2Proof.Machine

/-- R128: `x[rd] <- u16(a + imm)`. -/
def execAddi (rd : Reg) (imm : Word) (s : State) : Result := aluImm .add rd imm s

/-- R129: `x[rd] <- (s16(a) < s16(imm)) ? 1 : 0`. -/
def execSlti (rd : Reg) (imm : Word) (s : State) : Result := aluImm .slt rd imm s

/-- R130: `x[rd] <- (a < imm) ? 1 : 0`, both unsigned. -/
def execSltiu (rd : Reg) (imm : Word) (s : State) : Result := aluImm .sltu rd imm s

/-- R131: `x[rd] <- a << shamt`. -/
def execSlli (rd : Reg) (shamt : BitVec 4) (s : State) : Result := aluImm .sll rd (shamt.zeroExtend 16) s

/-- R132: `x[rd] <- a >>u shamt`. -/
def execSrli (rd : Reg) (shamt : BitVec 4) (s : State) : Result := aluImm .srl rd (shamt.zeroExtend 16) s

/-- R133: `x[rd] <- a >>s shamt`. -/
def execSrai (rd : Reg) (shamt : BitVec 4) (s : State) : Result := aluImm .sra rd (shamt.zeroExtend 16) s

/-- R134: `x[rd] <- a | imm`. -/
def execOri (rd : Reg) (imm : Word) (s : State) : Result := aluImm .or rd imm s

/-- R135: `x[rd] <- a & imm`. -/
def execAndi (rd : Reg) (imm : Word) (s : State) : Result := aluImm .and rd imm s

/-- R136: `x[rd] <- a ^ imm`. -/
def execXori (rd : Reg) (imm : Word) (s : State) : Result := aluImm .xor rd imm s

/-- R137: `x[rd] <- imm`. -/
def execLi (rd : Reg) (imm : Word) (s : State) : Result := aluImm .passB rd imm s

end Sys2Proof.Machine
end

