-- ==== Sys2Proof/Machine/JType.lean ====
section
/-!
DEFINITION. The jumps (spec 46_j_type.md R151, R152). The target is relative to the jump's own address (R110, C3).
-/

namespace Sys2Proof.Machine

/-- R151: `pc <- pc + s16(off)`. -/
def execJ (off : Word) (s : State) : Result := complete s { next := .rel off }

/-- R152: `x[rd] <- u16(pc + 2); pc <- pc + s16(off)`; an out-of-range target writes nothing (R100, R111). -/
def execJal (rd : Reg) (off : Word) (s : State) : Result :=
  complete s { wreg := some (rd, linkValue s), next := .rel off }

end Sys2Proof.Machine
end

