-- ==== Sys2Proof/Machine/LType.lean ====
section
/-!
DEFINITION. The loads (spec 45_l_type.md R148 to R150): base `x[rs2]`, destination `rd`.
-/

namespace Sys2Proof.Machine

/-- R148: `x[rd] <- sext_8(MemRead(ea, 1))`. -/
def execLb (rd rs2 : Reg) (imm : Word) (s : State) : Result :=
  loadInto rd .byte (effectiveAddress (s.reg rs2) imm) (fun m a => (m.read a).signExtend 16) s

/-- R149: `x[rd] <- MemRead(ea, 2)`, at an even address. -/
def execLw (rd rs2 : Reg) (imm : Word) (s : State) : Result :=
  loadInto rd .word (effectiveAddress (s.reg rs2) imm) (fun m a => m.readWord a) s

/-- R150: `x[rd] <- zext_8(MemRead(ea, 1))`. -/
def execLbu (rd rs2 : Reg) (imm : Word) (s : State) : Result :=
  loadInto rd .byte (effectiveAddress (s.reg rs2) imm) (fun m a => (m.read a).zeroExtend 16) s

end Sys2Proof.Machine
end

