-- ==== Sys2Proof/Machine/RType.lean ====
section
/-!
DEFINITION. The R-type instructions (spec 41_r_type.md R115 to R127).
-/

namespace Sys2Proof.Machine

/-- R115: `x[rd] <- u16(a + b)`. -/
def execAdd (rd rs2 : Reg) (s : State) : Result := aluReg .add rd rs2 s

/-- R116: `x[rd] <- u16(a - b)`. -/
def execSub (rd rs2 : Reg) (s : State) : Result := aluReg .sub rd rs2 s

/-- R117: `x[rd] <- (s16(a) < s16(b)) ? 1 : 0`. -/
def execSlt (rd rs2 : Reg) (s : State) : Result := aluReg .slt rd rs2 s

/-- R118: `x[rd] <- (a < b) ? 1 : 0`. -/
def execSltu (rd rs2 : Reg) (s : State) : Result := aluReg .sltu rd rs2 s

/-- R119: `x[rd] <- a << b[3:0]`. -/
def execSll (rd rs2 : Reg) (s : State) : Result := aluReg .sll rd rs2 s

/-- R120: `x[rd] <- a >>u b[3:0]`. -/
def execSrl (rd rs2 : Reg) (s : State) : Result := aluReg .srl rd rs2 s

/-- R121: `x[rd] <- a >>s b[3:0]`. -/
def execSra (rd rs2 : Reg) (s : State) : Result := aluReg .sra rd rs2 s

/-- R122: `x[rd] <- a | b`. -/
def execOr (rd rs2 : Reg) (s : State) : Result := aluReg .or rd rs2 s

/-- R123: `x[rd] <- a & b`. -/
def execAnd (rd rs2 : Reg) (s : State) : Result := aluReg .and rd rs2 s

/-- R124: `x[rd] <- a ^ b`. -/
def execXor (rd rs2 : Reg) (s : State) : Result := aluReg .xor rd rs2 s

/-- R125: `x[rd] <- b`. -/
def execMv (rd rs2 : Reg) (s : State) : Result := aluReg .passB rd rs2 s

/-- R126: `pc <- a`; an odd value is written and faults at the next fetch (R25). -/
def execJr (rd : Reg) (s : State) : Result := complete s { next := .abs (s.reg rd) }

/-- R127: `x[rd] <- u16(pc + 2); pc <- b`, with `b` read before the write (R101). -/
def execJalr (rd rs2 : Reg) (s : State) : Result :=
  complete s { wreg := some (rd, linkValue s), next := .abs (s.reg rs2) }

end Sys2Proof.Machine
end

