-- ==== Sys2Proof/Machine/SType.lean ====
section
/-!
DEFINITION. The stores (spec 44_s_type.md R146, R147): base `x[rs1]`, data `x[rs2]`.
-/

namespace Sys2Proof.Machine

/-- R146: `M[ea] <- b[7:0]`, any alignment. -/
def execSb (rs1 rs2 : Reg) (imm : Word) (s : State) : Result :=
  storeAt .byte (effectiveAddress (s.reg rs1) imm) (fun a => .byte a ((s.reg rs2).extractLsb' 0 8)) s

/-- R147: `M[ea] <- b[7:0]`, `M[ea+1] <- b[15:8]`, at an even address. -/
def execSw (rs1 rs2 : Reg) (imm : Word) (s : State) : Result :=
  storeAt .word (effectiveAddress (s.reg rs1) imm) (fun a => .word a (s.reg rs2)) s

end Sys2Proof.Machine
end

