-- ==== Sys2Proof/Machine/Sys.lean ====
section
/-!
DEFINITION. The system call (spec 48_sys.md R155 to R162). A request is handed to the host only by a step that completes
(R162), so every service goes through the PC range check of `complete` before its request is recorded.
-/

namespace Sys2Proof.Machine

/-- The register the source calls `a0`, read at the start of the step. -/
def State.a0v (s : State) : Word := s.reg s.cfg.a0

/-- R157: `status <- Halted`, and the pc stays at the `ecall`. -/
def serviceExit (s : State) : Result := complete s { next := .stay, halt := true }

/-- R158: the low byte of `a0`. -/
def servicePrintChar (s : State) : Result :=
  complete s { request := some (.printChar (s.a0v.extractLsb' 0 8)) }

/-- R159: `a0` gets the host's reply. A host that never replies leaves the step without a move; a step that the PC range
check faults hands the host nothing and so waits for no reply (R162, R188; DEDUCED, log 10, safe). -/
def serviceReadChar (s : State) : Result :=
  match s.nextReply with
  | some r => complete s { wreg := some (s.cfg.a0, r), request := some .readChar, takesReply := true }
  | none =>
    if inPcRange (pcMux s.pc .seq) then .fault .hostNeverReplies
    else .next (raise s .boundsError (pcMux s.pc .seq))

/-- R160: the bytes from the address in `a0` up to the first zero byte; `BoundsError(0x10000)` where no zero byte is found
at or below `0xFFFF`. -/
def servicePrintString (s : State) : Result :=
  match s.mem.readString s.a0v.toNat (65536 - s.a0v.toNat) with
  | some bytes => complete s { request := some (.printString bytes) }
  | none => .next (raise s .boundsError 0x10000)

/-- R161: `s16(a0)`. -/
def servicePrintInt (s : State) : Result := complete s { request := some (.printInt s.a0v.toInt) }

/-- R155: the service that `SERVICE_MAP` gives the code; a code it does not map raises `UnknownServiceError(svc)`
(R156). -/
def execEcall (svc : BitVec 10) (s : State) : Result :=
  match serviceOf s.cfg svc with
  | none => .next (raise s .unknownServiceError svc.toNat)
  | some .exit => serviceExit s
  | some .printChar => servicePrintChar s
  | some .readChar => serviceReadChar s
  | some .printString => servicePrintString s
  | some .printInt => servicePrintInt s

end Sys2Proof.Machine
end

