-- ==== Sys2Proof/Machine/UType.lean ====
section
/-!
DEFINITION. The upper-immediate instructions (spec 47_u_type.md R153, R154). `imm` is `u9 << 7` (R76).
-/

namespace Sys2Proof.Machine

/-- R153: `x[rd] <- imm`. -/
def execLui (rd : Reg) (imm : Word) (s : State) : Result := complete s { wreg := some (rd, imm) }

/-- R154: `x[rd] <- u16(pc + imm)`, with the address of the `auipc` itself. -/
def execAuipc (rd : Reg) (imm : Word) (s : State) : Result := complete s { wreg := some (rd, s.pc + imm) }

end Sys2Proof.Machine
end

