-- ==== Sys2Proof/Machine/Fetch.lean ====
section
/-!
DEFINITION. The first half of the step (spec 40_datapath.md R94, R96 steps 1 to 3; 60_exceptions.md R184 to R186): whether
a step happens at all, the fetch checks, the fetch and the decode.
-/

namespace Sys2Proof.Machine

/-- What the machine finds when a step begins. -/
inductive Fetched where
  /-- the status is not Running: the step changes nothing (R94) -/
  | idle
  /-- a fetch or decode fault, with what it records (R183) -/
  | trap (reason : FaultReason) (addr : Int)
  /-- an instruction to execute -/
  | run (i : Instr)
  deriving DecidableEq, Repr

/-- `w = MemRead(pc, 2)` (R98). -/
def fetchWord (s : State) : Word := s.mem.readWord s.pc.toNat

/-- R96, steps 1 to 3, in the order of R188: odd pc, then `EXEC_FORBIDDEN`, then decode. The source's check
"`PC+1 >= 64K`" can hold only at the odd pc 0xFFFF, which the first check takes (R96, C2; DEDUCED, log 11,
safe). -/
def fetchDecode (s : State) : Fetched :=
  match s.status with
  | .halted | .faulted _ => .idle
  | .running =>
    if s.pc.toNat % 2 = 1 then .trap .alignmentError s.pc.toNat
    else if s.pc ∈ s.cfg.execForbidden then .trap .boundsError s.pc.toNat
    else
      match decode s.cfg.functs (fetchWord s) with
      | .ok i => .run i
      | .error _ => .trap .decodeError (fetchWord s).toNat

/-- The state with the word `w` where the next fetch reads it, and the machine Running so that the fetch happens. -/
def placeFetchWord (s : State) (w : Word) : State :=
  { s with mem := s.mem.writeWord s.pc.toNat w, status := .running }

end Sys2Proof.Machine
end

