-- ==== Sys2Proof/Machine/Step.lean ====
section
/-!
DEFINITION. One step (spec 40_datapath.md R94 to R100), and where the next instruction's word is placed.
-/

namespace Sys2Proof.Machine

/-- `step()` (R96): a step taken while not Running changes nothing (R94; DEDUCED, log 6, safe), a fetch or decode fault is taken, and an
instruction is executed. -/
def step (s : State) : Host.Outcome State Fault Refusal :=
  match fetchDecode s with
  | .idle => .next s
  | .trap reason addr => .next (raise s reason addr)
  | .run i => exec i s

/-- `s` with the instruction whose low `nbits` bits are `w`, its other bits 0, stored at the pc, and Running so that the
next step fetches it (DESIGN CHOICE, log 9, safe). -/
def State.withFetchWord (s : State) (nbits w : Nat) : State := placeFetchWord s (BitVec.ofNat 16 (w % 2 ^ nbits))

end Sys2Proof.Machine
end

