-- ==== Sys2Proof/Machine/Disasm.lean ====
section
/-!
DEFINITION. The disassembler (spec 49_disassembler.md R163 to R182): a pure, total function of a word and a pc, which takes
every field and immediate from the decoder and every target from the PC mux (R164). Text is built as a list of
characters; `disassemble` is the string.
-/

namespace Sys2Proof.Machine

/-- ASCII text. -/
abbrev Text := List Char

/-! ### Number formats (R167) -/

/-- One digit, `0-9A-F`. -/
def digitChar (n : Nat) : Char := "0123456789ABCDEF".toList.getD n '0'

/-- The digits of `n` in `base`, most significant first, no padding; `fuel` bounds their number. -/
def digits (base : Nat) : Nat → Nat → Text
  | 0, _ => []
  | fuel + 1, n => if n < base then [digitChar n] else digits base fuel (n / base) ++ [digitChar (n % base)]

/-- `HEX4(n)`: four upper-case hexadecimal digits, zero padded. -/
def hex4 (n : Nat) : Text :=
  [digitChar (n / 4096 % 16), digitChar (n / 256 % 16), digitChar (n / 16 % 16), digitChar (n % 16)]

/-- `DEC(n)`: signed decimal, no `+`, no leading zeros. -/
def dec (n : Int) : Text := (if n < 0 then ['-'] else []) ++ digits 10 20 n.natAbs

/-- `TARGET(n)`: the exact integer the PC mux computes, so that a target out of range shows. -/
def target (n : Int) : Text :=
  if n < 0 then "-0x".toList ++ hex4 n.natAbs
  else if n ≤ 0xFFFF then "0x".toList ++ hex4 n.natAbs
  else "0x".toList ++ digits 16 20 n.natAbs

/-! ### Assembly text (R168 to R180) -/

/-- Register names are `x0` to `x7` (R168). -/
def regName (r : Reg) : Text := ['x', digitChar r.toNat]

/-- The lower-case names of opcode_table.json (R168). -/
def mnemonic : Instr → String
  | .add _ _ => "add"
  | .sub _ _ => "sub"
  | .slt _ _ => "slt"
  | .sltu _ _ => "sltu"
  | .sll _ _ => "sll"
  | .srl _ _ => "srl"
  | .sra _ _ => "sra"
  | .or _ _ => "or"
  | .and _ _ => "and"
  | .xor _ _ => "xor"
  | .mv _ _ => "mv"
  | .jr _ => "jr"
  | .jalr _ _ => "jalr"
  | .addi _ _ => "addi"
  | .slti _ _ => "slti"
  | .sltiu _ _ => "sltiu"
  | .slli _ _ => "slli"
  | .srli _ _ => "srli"
  | .srai _ _ => "srai"
  | .ori _ _ => "ori"
  | .andi _ _ => "andi"
  | .xori _ _ => "xori"
  | .li _ _ => "li"
  | .beq _ _ _ => "beq"
  | .bne _ _ _ => "bne"
  | .bz _ _ => "bz"
  | .bnz _ _ => "bnz"
  | .blt _ _ _ => "blt"
  | .bge _ _ _ => "bge"
  | .bltu _ _ _ => "bltu"
  | .bgeu _ _ _ => "bgeu"
  | .sb _ _ _ => "sb"
  | .sw _ _ _ => "sw"
  | .lb _ _ _ => "lb"
  | .lw _ _ _ => "lw"
  | .lbu _ _ _ => "lbu"
  | .j _ => "j"
  | .jal _ _ => "jal"
  | .lui _ _ => "lui"
  | .auipc _ _ => "auipc"
  | .ecall _ => "ecall"

/-- Operands are separated by a comma and one space (R168). -/
def commaSep : List Text → Text
  | [] => []
  | [t] => t
  | t :: rest => t ++ ", ".toList ++ commaSep rest

/-- `DEC(imm)(xBASE)`: an offset with its base register in parentheses (R175, R176). -/
def offsetBase (imm : Word) (base : Reg) : Text := dec imm.toInt ++ ['('] ++ regName base ++ [')']

/-- The absolute target of a branch or jump at `pc`, by the PC mux's arithmetic (R164, R174, R177). -/
def relTarget (pc off : Word) : Text := target (pcMux pc (.rel off))

/-- The operands of an instruction at `pc` (R169 to R179). -/
def operandTexts (pc : Word) : Instr → List Text
  | .add rd rs2 | .sub rd rs2 | .slt rd rs2 | .sltu rd rs2 | .sll rd rs2 | .srl rd rs2 | .sra rd rs2
  | .or rd rs2 | .and rd rs2 | .xor rd rs2 | .mv rd rs2 | .jalr rd rs2 => [regName rd, regName rs2]
  | .jr rd => [regName rd]
  | .addi rd imm | .slti rd imm | .sltiu rd imm | .ori rd imm | .andi rd imm | .xori rd imm | .li rd imm =>
    [regName rd, dec imm.toInt]
  | .slli rd shamt | .srli rd shamt | .srai rd shamt => [regName rd, dec shamt.toNat]
  | .beq rs1 rs2 off | .bne rs1 rs2 off | .blt rs1 rs2 off | .bge rs1 rs2 off | .bltu rs1 rs2 off
  | .bgeu rs1 rs2 off => [regName rs1, regName rs2, relTarget pc off]
  | .bz rs1 off | .bnz rs1 off => [regName rs1, relTarget pc off]
  | .sb rs1 rs2 imm | .sw rs1 rs2 imm => [regName rs2, offsetBase imm rs1]
  | .lb rd rs2 imm | .lw rd rs2 imm | .lbu rd rs2 imm => [regName rd, offsetBase imm rs2]
  | .j off => [relTarget pc off]
  | .jal rd off => [regName rd, relTarget pc off]
  | .lui rd imm | .auipc rd imm => [regName rd, dec (imm.toNat / 128 : Nat)]
  | .ecall svc => [dec svc.toNat]

/-- The assembly text of an instruction at `pc`. -/
def asmText (pc : Word) (i : Instr) : Text := (mnemonic i).toList ++ [' '] ++ commaSep (operandTexts pc i)

/-- The assembly text of a word: an illegal word is `.word 0xHHHH` (R180). -/
def wordText (t : FunctTable) (w pc : Word) : Text :=
  match decode t w with
  | .ok i => asmText pc i
  | .error _ => ".word 0x".toList ++ hex4 w.toNat

/-- One line, `0xPPPP: 0xWWWW` and the assembly text after two spaces (R166). -/
def disassembleText (t : FunctTable) (w pc : Word) : Text :=
  "0x".toList ++ hex4 pc.toNat ++ ": 0x".toList ++ hex4 w.toNat ++ "  ".toList ++ wordText t w pc

/-- `disassemble(word, pc) -> text` (R163). -/
def disassemble (t : FunctTable) (w pc : Word) : String := String.ofList (disassembleText t w pc)

end Sys2Proof.Machine
end

