-- ==== Sys2Proof/Machine/Interface.lean ====
section
/-!
DEFINITION. The operations the block exposes beside `step` (spec 10_state.md R34 to R38): `reset()`, `load(bytes)`, the
accessors, the value a step returns (40_datapath.md R95), and the signal-level edge (R35) with its outputs (R183).
-/

namespace Sys2Proof.Machine

/-- `reset()` (R203): registers, memory and pc 0, status Running. The parameters are not state of the machine and stay,
and so does the record of what has passed between core and host (DESIGN CHOICE, log 8, safe). -/
def State.doReset (s : State) : State :=
  { s with regs := State.reset.regs, pc := State.reset.pc, mem := State.reset.mem, status := State.reset.status }

/-- `load(bytes)` (R205): the first 65536 bytes of the image go to the addresses from 0 up, the pc becomes 0 and the status
Running; other bytes and the registers keep their values. -/
def State.load (s : State) (bytes : List Byte) : State :=
  { s with mem := s.mem.writeBytes 0 (bytes.take 65536), pc := 0, status := .running }

/-! ### Accessors, used between steps (R37, R38) -/

def State.peekReg (s : State) (r : Reg) : Word := s.reg r
def State.peekPc (s : State) : Word := s.pc
def State.peekByte (s : State) (a : Word) : Byte := s.mem.read a.toNat
def State.peekStatus (s : State) : Status := s.status
def State.pokeReg (s : State) (r : Reg) (v : Word) : State := { s with regs := setReg s.regs r v }
def State.pokePc (s : State) (v : Word) : State := { s with pc := v }
def State.pokeByte (s : State) (a : Word) (b : Byte) : State := { s with mem := s.mem.write a.toNat b }

/-! ### What a step returns (R95) -/

/-- `Continue`, `Halted` or `Faulted(f)` (R95). -/
inductive StepReturn where
  | continue
  | halted
  | faulted (f : FaultRecord)
  deriving DecidableEq, Repr

/-- The value `step()` returns beside the state after it (R94, R95): the status after the step says it. -/
def stepReturn (after : State) : StepReturn :=
  match after.status with
  | .running => .continue
  | .halted => .halted
  | .faulted f => .faulted f

/-! ### The signal level (R35) -/

/-- A rising edge of `clk`: with `rst` the block resets; else with `step_en` it takes one step, which changes nothing
unless the status is Running; else nothing changes (R35). -/
def clockEdge (rst stepEn : Bool) (s : State) : Result :=
  if rst then .next s.doReset else if stepEn then step s else .next s

/-- The numeric code on the `fault_reason` output (R183). -/
def FaultReason.code : FaultReason → Nat
  | .decodeError => 0
  | .alignmentError => 1
  | .boundsError => 2
  | .unknownServiceError => 3

/-- The outputs of R35: the status with its fault record, and the register file. -/
def outputs (s : State) : Status × Vector Word 8 := (s.status, s.regs)

end Sys2Proof.Machine
end

