-- ==== Sys2Proof/Safety.lean ====
section
/-!
DEFINITION. The terms claims are stated in: which runs end well (spec 60_exceptions.md R194), the invariant of the
machine, what an instruction may write (R19, R52), and when a step only falls through to the next instruction.
-/

namespace Sys2Proof.Machine

/-- A run ends well in `Halted` (R194); `Faulted` is never a good end. -/
def State.endedWell (s : State) : Prop := s.status = .halted

/-- What a fault record says of the state it was raised in (R183): nothing was committed, so the state still shows why
the fault was raised. -/
def recordSound (s : State) (f : FaultRecord) : Prop :=
  f.faultPc = s.pc ∧
  match f.reason with
  | .decodeError =>
    f.faultAddr = (fetchWord s).toNat ∧ decode s.cfg.functs (fetchWord s) = .error (.illegal (fetchWord s))
  | .alignmentError => 0 ≤ f.faultAddr ∧ f.faultAddr ≤ 0xFFFF ∧ f.faultAddr % 2 = 1
  | .boundsError =>
    f.faultAddr < 0 ∨ 0xFFFF < f.faultAddr ∨ (s.pc ∈ s.cfg.execForbidden ∧ f.faultAddr = s.pc.toNat)
  | .unknownServiceError => ∃ svc : BitVec 10, f.faultAddr = svc.toNat ∧ serviceOf s.cfg svc = none

/-- The invariant: memory is in its canonical form inside the address space, and a fault record tells the truth. -/
def State.Inv (s : State) : Prop :=
  s.mem.wf ∧ ∀ f, s.status = .faulted f → recordSound s f

/-- `pc + 2` is a legal next PC (R111). -/
abbrev State.roomForNext (s : State) : Prop := s.pc.toNat + 2 ≤ 0xFFFF

/-- The state after an instruction that writes `v` to `rd` and goes on at `pc + 2`. -/
def State.seqWrite (s : State) (rd : Reg) (v : Word) : State := { s with regs := setReg s.regs rd v, pc := s.pc + 2 }

/-- The state with the fault `reason(pc, addr)` recorded and nothing else changed (R190). -/
def State.faultedWith (s : State) (reason : FaultReason) (addr : Int) : State :=
  { s with status := .faulted ⟨reason, s.pc, addr⟩ }

/-- The integer an `n`-bit field `v` denotes when bit `n-1` is its sign (R10). -/
def signedField (n v : Nat) : Int := if v < 2 ^ (n - 1) then (v : Int) else (v : Int) - 2 ^ n

/-- The relative target `pc + s16(off)` (R110). -/
def State.relTarget (s : State) (off : Word) : Int := (s.pc.toNat : Int) + off.toInt

/-- `t` is a legal next PC (R111). -/
abbrev legalPc (t : Int) : Prop := 0 ≤ t ∧ t ≤ 0xFFFF

/-- The status was kept, or the step took a fault. -/
def statusKeptOrFaulted (s t : State) : Prop := t.status = s.status ∨ ∃ f, t.status = .faulted f

/-- Every register but those of `written` reads as before. -/
def sameRegsExcept (written : List Reg) (s t : State) : Prop := ∀ r, r ∉ written → t.reg r = s.reg r

/-- Every byte of memory but those at the addresses of `stored` reads as before. -/
def sameBytesExcept (stored : List Nat) (s t : State) : Prop := ∀ a, a ∉ stored → t.mem.read a = s.mem.read a

/-- The parameters, and everything exchanged with the host, are as before. -/
def sameHostSide (s t : State) : Prop :=
  t.cfg = s.cfg ∧ t.requests = s.requests ∧ t.replies = s.replies ∧ t.draws = s.draws

/-- The registers an instruction may write (R19): `rd` of every R-type operation but jr, of every I-type operation, of
the loads, jal, lui and auipc; `a0` for an `ecall` that the configuration maps to ReadChar; none for the rest. -/
def destRegs (c : Config) : Instr → List Reg
  | .add rd _ | .sub rd _ | .slt rd _ | .sltu rd _ | .sll rd _ | .srl rd _ | .sra rd _ | .or rd _ | .and rd _
  | .xor rd _ | .mv rd _ | .jalr rd _ => [rd]
  | .addi rd _ | .slti rd _ | .sltiu rd _ | .slli rd _ | .srli rd _ | .srai rd _ | .ori rd _ | .andi rd _ | .xori rd _
  | .li rd _ => [rd]
  | .lb rd _ _ | .lw rd _ _ | .lbu rd _ _ => [rd]
  | .jal rd _ | .lui rd _ | .auipc rd _ => [rd]
  | .ecall svc => if serviceOf c svc = some .readChar then [c.a0] else []
  | .jr _ | .beq _ _ _ | .bne _ _ _ | .bz _ _ | .bnz _ _ | .blt _ _ _ | .bge _ _ _ | .bltu _ _ _ | .bgeu _ _ _
  | .sb _ _ _ | .sw _ _ _ | .j _ => []

/-- The instructions that write one register from registers, immediates and the pc, and touch nothing else: the R-type
operations but jr, the I-type operations, jal, lui and auipc. -/
def writesRegisterOnly : Instr → Bool
  | .add _ _ | .sub _ _ | .slt _ _ | .sltu _ _ | .sll _ _ | .srl _ _ | .sra _ _ | .or _ _ | .and _ _ | .xor _ _
  | .mv _ _ | .jalr _ _ => true
  | .addi _ _ | .slti _ _ | .sltiu _ _ | .slli _ _ | .srli _ _ | .srai _ _ | .ori _ _ | .andi _ _ | .xori _ _
  | .li _ _ => true
  | .jal _ _ | .lui _ _ | .auipc _ _ => true
  | .jr _ | .beq _ _ _ | .bne _ _ _ | .bz _ _ | .bnz _ _ | .blt _ _ _ | .bge _ _ _ | .bltu _ _ _ | .bgeu _ _ _
  | .sb _ _ _ | .sw _ _ _ | .lb _ _ _ | .lw _ _ _ | .lbu _ _ _ | .j _ | .ecall _ => false

/-- The instructions that write no register and no memory: the branches, j and jr. -/
def redirectsOnly : Instr → Bool
  | .jr _ | .beq _ _ _ | .bne _ _ _ | .bz _ _ | .bnz _ _ | .blt _ _ _ | .bge _ _ _ | .bltu _ _ _ | .bgeu _ _ _
  | .j _ => true
  | .add _ _ | .sub _ _ | .slt _ _ | .sltu _ _ | .sll _ _ | .srl _ _ | .sra _ _ | .or _ _ | .and _ _ | .xor _ _
  | .mv _ _ | .jalr _ _ => false
  | .addi _ _ | .slti _ _ | .sltiu _ _ | .slli _ _ | .srli _ _ | .srai _ _ | .ori _ _ | .andi _ _ | .xori _ _
  | .li _ _ => false
  | .jal _ _ | .lui _ _ | .auipc _ _ | .sb _ _ _ | .sw _ _ _ | .lb _ _ _ | .lw _ _ _ | .lbu _ _ _ | .ecall _ => false

/-- The instructions that never redirect the pc and check nothing but the PC range: the R-type operations but jr and
jalr, the I-type operations, lui and auipc. -/
def fallsThroughOnly (i : Instr) : Bool :=
  match i with
  | .jal _ _ | .jalr _ _ => false
  | i => writesRegisterOnly i

/-- The conditional branches (R138 to R145). -/
def isBranch : Instr → Bool
  | .beq _ _ _ | .bne _ _ _ | .bz _ _ | .bnz _ _ | .blt _ _ _ | .bge _ _ _ | .bltu _ _ _ | .bgeu _ _ _ => true
  | .add _ _ | .sub _ _ | .slt _ _ | .sltu _ _ | .sll _ _ | .srl _ _ | .sra _ _ | .or _ _ | .and _ _ | .xor _ _
  | .mv _ _ | .jr _ | .jalr _ _ => false
  | .addi _ _ | .slti _ _ | .sltiu _ _ | .slli _ _ | .srli _ _ | .srai _ _ | .ori _ _ | .andi _ _ | .xori _ _
  | .li _ _ => false
  | .j _ | .jal _ _ | .lui _ _ | .auipc _ _ | .sb _ _ _ | .sw _ _ _ | .lb _ _ _ | .lw _ _ _ | .lbu _ _ _
  | .ecall _ => false

/-- The offset of the selector `Rel` where the instruction selects it (R110): `j`, `jal` and a branch that is taken. -/
def relOffset (s : State) : Instr → Option Word
  | .j off | .jal _ off => some off
  | .beq rs1 rs2 off => if s.reg rs1 = s.reg rs2 then some off else none
  | .bne rs1 rs2 off => if s.reg rs1 ≠ s.reg rs2 then some off else none
  | .bz rs1 off => if s.reg rs1 = 0 then some off else none
  | .bnz rs1 off => if s.reg rs1 ≠ 0 then some off else none
  | .blt rs1 rs2 off => if (s.reg rs1).toInt < (s.reg rs2).toInt then some off else none
  | .bge rs1 rs2 off => if (s.reg rs2).toInt ≤ (s.reg rs1).toInt then some off else none
  | .bltu rs1 rs2 off => if (s.reg rs1).toNat < (s.reg rs2).toNat then some off else none
  | .bgeu rs1 rs2 off => if (s.reg rs2).toNat ≤ (s.reg rs1).toNat then some off else none
  | .add _ _ | .sub _ _ | .slt _ _ | .sltu _ _ | .sll _ _ | .srl _ _ | .sra _ _ | .or _ _ | .and _ _ | .xor _ _
  | .mv _ _ | .jr _ | .jalr _ _ => none
  | .addi _ _ | .slti _ _ | .sltiu _ _ | .slli _ _ | .srli _ _ | .srai _ _ | .ori _ _ | .andi _ _ | .xori _ _
  | .li _ _ => none
  | .lui _ _ | .auipc _ _ | .sb _ _ _ | .sw _ _ _ | .lb _ _ _ | .lw _ _ _ | .lbu _ _ _ | .ecall _ => none

/-- The format of an instruction (R62, 30_encoding.md). -/
def instrFormat : Instr → Format
  | .add _ _ | .sub _ _ | .slt _ _ | .sltu _ _ | .sll _ _ | .srl _ _ | .sra _ _ | .or _ _ | .and _ _ | .xor _ _
  | .mv _ _ | .jr _ | .jalr _ _ => .r
  | .addi _ _ | .slti _ _ | .sltiu _ _ | .slli _ _ | .srli _ _ | .srai _ _ | .ori _ _ | .andi _ _ | .xori _ _
  | .li _ _ => .i
  | .beq _ _ _ | .bne _ _ _ | .bz _ _ | .bnz _ _ | .blt _ _ _ | .bge _ _ _ | .bltu _ _ _ | .bgeu _ _ _ => .b
  | .sb _ _ _ | .sw _ _ _ => .s
  | .lb _ _ _ | .lw _ _ _ | .lbu _ _ _ => .l
  | .j _ | .jal _ _ => .j
  | .lui _ _ | .auipc _ _ => .u
  | .ecall _ => .sys

/-- The immediate or offset operand of an instruction, where it has one (R71 to R76). -/
def immOperand : Instr → Option Word
  | .addi _ imm | .slti _ imm | .sltiu _ imm | .ori _ imm | .andi _ imm | .xori _ imm | .li _ imm => some imm
  | .beq _ _ off | .bne _ _ off | .blt _ _ off | .bge _ _ off | .bltu _ _ off | .bgeu _ _ off => some off
  | .bz _ off | .bnz _ off => some off
  | .sb _ _ imm | .sw _ _ imm | .lb _ _ imm | .lw _ _ imm | .lbu _ _ imm => some imm
  | .j off | .jal _ off => some off
  | .lui _ imm | .auipc _ imm => some imm
  | .add _ _ | .sub _ _ | .slt _ _ | .sltu _ _ | .sll _ _ | .srl _ _ | .sra _ _ | .or _ _ | .and _ _ | .xor _ _
  | .mv _ _ | .jr _ | .jalr _ _ | .slli _ _ | .srli _ _ | .srai _ _ | .ecall _ => none

end Sys2Proof.Machine
end

