-- ==== Sys2Proof/Certificates/Slice0/Obligations.lean ====
section
/-!
DEFINITION. The statements for the provers. Where a statement rests on a choice the spec marks as its own (a decision D<n>
of 92_eei_decisions.md) or on a choice of this model (an entry of the assumption log), its docstring says so.
-/

open Sys2Proof Sys2Proof.Machine

/-! ## Encoding and decoding (30_encoding.md) -/

/-- R78, R79 to R86: for every instruction whose operands its encoding admits, decoding its word gives it back, under the
default function codes (decision D1; log 1). -/
def Obligations.DecodeOfEncodeIsIdentity : Prop :=
  ∀ i : Instr, i.wellFormed = true → decode defaultFunctTable (encode i) = .ok i

/-- R71, R73 to R76, R78: whatever the function table, the decoder hands out only immediates in their format's range. -/
def Obligations.DecodedInstructionIsWellFormed : Prop :=
  ∀ (t : FunctTable) (w : Word) (i : Instr), decode t w = .ok i → i.wellFormed = true

/-- R78, R88 (decision D17): the encoder gives back every word that decodes, but for the bits its instruction does not
use, which it makes 0. -/
def Obligations.EncodeOfDecodeKeepsUsedBits : Prop :=
  ∀ (w : Word) (i : Instr), decode defaultFunctTable w = .ok i → encode i = w &&& ~~~ dontCare i

/-- R87, under the function codes of R79 to R83 (decision D1; log 1): the illegal words are exactly the listed ones. -/
def Obligations.IllegalWordsAreExactlyTheListed : Prop :=
  ∀ w : Word,
    decode defaultFunctTable w = .error (.illegal w) ↔
      (w.toNat % 8 = 0 ∧
        (w.toNat / 4096, w.toNat / 8 % 8) ∉
          [(0, 0), (1, 0), (2, 1), (3, 2), (4, 3), (5, 3), (6, 3), (7, 4), (8, 5), (9, 6), (10, 7), (11, 0), (12, 0)]) ∨
      (w.toNat % 8 = 1 ∧ w.toNat / 8 % 8 = 3 ∧ w.toNat / 8192 ∉ [1, 2, 4]) ∨
      (w.toNat % 8 = 3 ∧ 2 ≤ w.toNat / 8 % 8) ∨
      (w.toNat % 8 = 4 ∧ w.toNat / 8 % 8 ∈ [2, 3, 5, 6, 7]) ∨
      (w.toNat % 8 = 7 ∧ w.toNat / 8 % 8 ≠ 0)

/-- The source's three worked words (95_test_vectors.md W9) and one word of each other format, written from the encoding
tables (decision D1 for the latter; log 1). -/
def Obligations.SampleWordsDecode : Prop :=
  decode defaultFunctTable 0x8468 = .ok (.and 1 2) ∧
  decode defaultFunctTable 0x0E79 = .ok (.li 1 7) ∧
  decode defaultFunctTable 0xFFC7 = .ok (.ecall 1023) ∧
  decode defaultFunctTable 0x8442 = .ok (.beq 1 2 (-16)) ∧
  decode defaultFunctTable 0xF443 = .ok (.sb 1 2 (-1)) ∧
  decode defaultFunctTable 0x1444 = .ok (.lb 1 2 1) ∧
  decode defaultFunctTable 0xBE7D = .ok (.jal 1 510) ∧
  decode defaultFunctTable 0x7E7E = .ok (.lui 1 0xFF80)

/-- R62: the low three bits select the format, whatever the function table; and no value of them is unassigned, which the
second clause says of the default function codes only (decision D1; log 1, PRESUMED). -/
def Obligations.LowThreeBitsSelectTheFormat : Prop :=
  (∀ (t : FunctTable) (w : Word) (i : Instr), decode t w = .ok i →
    [Format.r, .i, .b, .s, .l, .j, .u, .sys][w.toNat % 8]? = some (instrFormat i)) ∧
  ∀ op : Nat, op < 8 → ∃ (w : Word) (i : Instr), w.toNat % 8 = op ∧ decode defaultFunctTable w = .ok i

/-- R71, R73 to R76: the value of the immediate operand in each format, as an integer read off the bits of the word. -/
def Obligations.ImmediatesOfEachFormat : Prop :=
  ∀ (t : FunctTable) (w : Word) (i : Instr) (imm : Word), decode t w = .ok i → immOperand i = some imm →
    (instrFormat i = .i → imm.toInt = signedField 7 (w.toNat / 512)) ∧
    (instrFormat i = .b → imm.toInt = signedField 5 (2 * (w.toNat / 4096))) ∧
    (instrFormat i = .s ∨ instrFormat i = .l → imm.toInt = signedField 4 (w.toNat / 4096)) ∧
    (instrFormat i = .j → imm.toInt = signedField 10 (w.toNat / 512 % 64 * 16 + w.toNat / 8 % 8 * 2)) ∧
    (instrFormat i = .u → imm.toNat = (w.toNat / 512 % 64 * 8 + w.toNat / 8 % 8) * 128)

/-- R72, R77: the shift amount is `w[12:9]`, the low 4 bits of `imm_I`, the shift selector is `w[15:13]`, and the service
code is `w[15:6]`. -/
def Obligations.ShiftAmountAndServiceFields : Prop :=
  ∀ (t : FunctTable) (w : Word),
    (selField w).toNat = w.toNat / 8192 ∧
    (immI w).toNat % 16 = w.toNat / 512 % 16 ∧
    (∀ (rd : Reg) (shamt : BitVec 4),
      decode t w = .ok (.slli rd shamt) ∨ decode t w = .ok (.srli rd shamt) ∨ decode t w = .ok (.srai rd shamt) →
        shamt.toNat = w.toNat / 512 % 16) ∧
    ∀ svc : BitVec 10, decode t w = .ok (.ecall svc) → svc.toNat = w.toNat / 64

/-- R88 (decision D17): words that differ only in the `rs2` field of jr, bz or bnz, or in the `rd` field of j, decode to
the same instruction. -/
def Obligations.DontCareFieldsAreIgnored : Prop :=
  ∀ (t : FunctTable) (w w' : Word) (i : Instr), decode t w = .ok i → w' &&& ~~~ dontCare i = w &&& ~~~ dontCare i →
    decode t w' = .ok i

/-! ## The step (40_datapath.md) -/

/-- R96, R98, R99: when the machine is Running, the pc is even and not forbidden, and the little-endian word at the pc
decodes to `i`, the step is `i`'s meaning at that state; nothing is added around it. -/
def Obligations.StepRunsTheDecodedInstruction : Prop :=
  ∀ (s : State) (i : Instr), s.status = .running → s.pc.toNat % 2 = 0 → s.pc ∉ s.cfg.execForbidden →
    decode s.cfg.functs
      (BitVec.ofNat 16 ((s.mem.read s.pc.toNat).toNat + 256 * (s.mem.read (s.pc.toNat + 1)).toNat)) = .ok i →
    step s = exec i s

/-- R94 (decision D10; log 6): a step while Halted or Faulted changes nothing. -/
def Obligations.StoppedMachineStaysPut : Prop :=
  ∀ s : State, s.status ≠ .running → step s = .next s

/-- R184: an odd pc faults at the fetch, and a step leaves an odd pc behind only where it executed jr or jalr. -/
def Obligations.OddPcFaultsAndComesFromRegisterJumps : Prop :=
  (∀ s : State, s.status = .running → s.pc.toNat % 2 = 1 →
    step s = .next (s.faultedWith .alignmentError s.pc.toNat)) ∧
  ∀ s t : State, s.pc.toNat % 2 = 0 → step s = .next t → t.pc.toNat % 2 = 1 →
    ∃ i, fetchDecode s = .run i ∧ ((∃ rd, i = .jr rd) ∨ ∃ rd rs2, i = .jalr rd rs2)

/-- R185 (decision D12; log 4): an even pc in EXEC_FORBIDDEN faults before the word at it is looked at. -/
def Obligations.ForbiddenFetchFaults : Prop :=
  ∀ s : State, s.status = .running → s.pc.toNat % 2 = 0 → s.pc ∈ s.cfg.execForbidden →
    step s = .next (s.faultedWith .boundsError s.pc.toNat)

/-- R186, R99: a fetched word that the machine's function table makes no instruction raises `DecodeError(w)` and commits
nothing. -/
def Obligations.IllegalWordRaisesDecodeError : Prop :=
  ∀ s : State, s.status = .running → s.pc.toNat % 2 = 0 → s.pc ∉ s.cfg.execForbidden →
    (∀ i, decode s.cfg.functs (fetchWord s) ≠ .ok i) →
    step s = .next (s.faultedWith .decodeError (fetchWord s).toNat)

/-- R100, R190 (decision D6): a step that faults changes the status alone, and records the pc it faulted at. -/
def Obligations.FaultingStepCommitsNothing : Prop :=
  ∀ (s t : State) (f : FaultRecord), s.status = .running → step s = .next t → t.status = .faulted f →
    f.faultPc = s.pc ∧ t = s.faultedWith f.reason f.faultAddr

/-- From every state with a canonical memory and a truthful fault record, a step gives such a state (the invariant
`State.Inv`: R30, R41, R183; decisions D6, D25 for what a record holds). -/
def Obligations.StepKeepsInvariant : Prop :=
  ∀ s t : State, s.Inv → step s = .next t → t.Inv

/-- The reset state meets the invariant. -/
def Obligations.ResetMeetsInvariant : Prop := State.reset.Inv

/-- R36, R162 (decision D6): a step changes no parameter, hands the host at most one request, and none where it faults. -/
def Obligations.StepHandsOverAtMostOneRequest : Prop :=
  ∀ s t : State, step s = .next t →
    t.cfg = s.cfg ∧
    ∃ sent : List Request, t.requests = s.requests ++ sent ∧ sent.length ≤ 1 ∧
      (s.status = .running → (∃ f, t.status = .faulted f) → sent = [])

/-- R159 (decision D18; log 7): the machine is stuck in no other way than by a ReadChar that the host never answers. -/
def Obligations.OnlyUnansweredReadCharStops : Prop :=
  ∀ s : State, (∃ t, step s = .next t) ∨
    (step s = .fault .hostNeverReplies ∧ s.replies = [] ∧ Config.hostReply s.draws = none ∧
      ∃ svc, fetchDecode s = .run (.ecall svc) ∧ s.cfg.services.lookup svc = some .readChar)

/-- R19: no instruction writes more than one register, and it writes only the one listed for it. -/
def Obligations.RegistersWrittenAreTheListedOnes : Prop :=
  ∀ (i : Instr) (s t : State), exec i s = .next t →
    (destRegs s.cfg i).length ≤ 1 ∧ sameRegsExcept (destRegs s.cfg i) s t

/-- R52: memory changes in a step only where the step executed sb or sw. -/
def Obligations.MemoryChangesOnlyByStores : Prop :=
  ∀ s t : State, step s = .next t → t.mem ≠ s.mem →
    ∃ rs1 rs2 imm, fetchDecode s = .run (.sb rs1 rs2 imm) ∨ fetchDecode s = .run (.sw rs1 rs2 imm)

/-- R59 (decision D23): a word stored at the address of the very next instruction is the word the next step fetches. -/
def Obligations.StoreIsSeenByTheNextFetch : Prop :=
  ∀ (rs1 rs2 : Reg) (imm : Word) (s t : State),
    exec (.sw rs1 rs2 imm) s = .next t → t.status = .running →
    effectiveAddress (s.reg rs1) imm = t.pc.toNat → fetchWord t = s.reg rs2

/-! ## Memory and registers (10_state.md, 20_memory.md) -/

/-- R43, R45, R46: a byte write changes that byte alone; a word write puts the low byte at the address, the high byte
above it, and changes nothing else; a word read is `M[a] + 256 * M[a+1]`. -/
def Obligations.MemoryIsLittleEndian : Prop :=
  (∀ (m : Memory) (a x : Nat) (b : Byte), (m.write a b).read x = if x = a then b else m.read x) ∧
  (∀ (m : Memory) (a x : Nat) (v : Word), ((m.writeWord a v).read x).toNat =
    if x = a then v.toNat % 256 else if x = a + 1 then v.toNat / 256 else (m.read x).toNat) ∧
  ∀ (m : Memory) (a : Nat), (m.readWord a).toNat = (m.read a).toNat + 256 * (m.read (a + 1)).toNat

/-- R18, R38 (decision D15): the eight registers are independent cells, and none is hardwired. -/
def Obligations.RegisterCellsAreIndependent : Prop :=
  ∀ (s : State) (r q : Reg) (v : Word), (s.pokeReg r v).peekReg q = if q = r then v else s.peekReg q

/-! ## The ALU (R102) -/

/-- R102: every operation of the ALU, in the integer arithmetic of R9 and R11. -/
def Obligations.AluComputesEachOperation : Prop :=
  ∀ a b : Word,
    (alu .add a b).toNat = (a.toNat + b.toNat) % 65536 ∧
    ((alu .sub a b).toNat : Int) = ((a.toNat : Int) - b.toNat) % 65536 ∧
    (alu .slt a b).toNat = (if a.toInt < b.toInt then 1 else 0) ∧
    (alu .sltu a b).toNat = (if a.toNat < b.toNat then 1 else 0) ∧
    (alu .sll a b).toNat = a.toNat * 2 ^ (b.toNat % 16) % 65536 ∧
    (alu .srl a b).toNat = a.toNat / 2 ^ (b.toNat % 16) ∧
    (alu .sra a b).toInt = a.toInt / 2 ^ (b.toNat % 16) ∧
    (∀ n : Nat, (alu .or a b).getLsbD n = (a.getLsbD n || b.getLsbD n)) ∧
    (∀ n : Nat, (alu .and a b).getLsbD n = (a.getLsbD n && b.getLsbD n)) ∧
    (∀ n : Nat, (alu .xor a b).getLsbD n = (a.getLsbD n ^^ b.getLsbD n)) ∧
    alu .passB a b = b

/-! ## R-type and I-type instructions (41_r_type.md, 42_i_type.md) -/

/-- R115 to R118: add, sub, slt and sltu complete where `pc + 2` is a legal next PC. -/
def Obligations.AddSubtractCompareComplete : Prop :=
  ∀ (rd rs2 : Reg) (s : State), s.roomForNext →
    exec (.add rd rs2) s = .next (s.seqWrite rd (BitVec.ofNat 16 ((s.reg rd).toNat + (s.reg rs2).toNat))) ∧
    exec (.sub rd rs2) s = .next (s.seqWrite rd (BitVec.ofInt 16 ((s.reg rd).toNat - (s.reg rs2).toNat))) ∧
    exec (.slt rd rs2) s = .next (s.seqWrite rd (if (s.reg rd).toInt < (s.reg rs2).toInt then 1 else 0)) ∧
    exec (.sltu rd rs2) s = .next (s.seqWrite rd (if (s.reg rd).toNat < (s.reg rs2).toNat then 1 else 0))

/-- R105, R119 to R121: the register shifts complete, by the low 4 bits of `rs2`. -/
def Obligations.RegisterShiftsComplete : Prop :=
  ∀ (rd rs2 : Reg) (s : State), s.roomForNext →
    exec (.sll rd rs2) s =
      .next (s.seqWrite rd (BitVec.ofNat 16 ((s.reg rd).toNat * 2 ^ ((s.reg rs2).toNat % 16)))) ∧
    exec (.srl rd rs2) s =
      .next (s.seqWrite rd (BitVec.ofNat 16 ((s.reg rd).toNat / 2 ^ ((s.reg rs2).toNat % 16)))) ∧
    exec (.sra rd rs2) s =
      .next (s.seqWrite rd (BitVec.ofInt 16 ((s.reg rd).toInt / 2 ^ ((s.reg rs2).toNat % 16))))

/-- R122 to R125: or, and, xor and mv complete. -/
def Obligations.LogicAndMoveComplete : Prop :=
  ∀ (rd rs2 : Reg) (s : State), s.roomForNext →
    exec (.or rd rs2) s = .next (s.seqWrite rd (s.reg rd ||| s.reg rs2)) ∧
    exec (.and rd rs2) s = .next (s.seqWrite rd (s.reg rd &&& s.reg rs2)) ∧
    exec (.xor rd rs2) s = .next (s.seqWrite rd (s.reg rd ^^^ s.reg rs2)) ∧
    exec (.mv rd rs2) s = .next (s.seqWrite rd (s.reg rs2))

/-- R126, R127, R101, R112 (decisions D4, D7, D8): jr and jalr complete in every state, with the target read before the
link value is written, and an odd target written as it is. -/
def Obligations.RegisterJumpsComplete : Prop :=
  ∀ (rd rs2 : Reg) (s : State),
    exec (.jr rd) s = .next { s with pc := s.reg rd } ∧
    exec (.jalr rd rs2) s =
      .next { s with regs := setReg s.regs rd (BitVec.ofNat 16 (s.pc.toNat + 2)), pc := s.reg rs2 }

/-- R128 to R130: addi, slti and sltiu complete; the comparison of sltiu is unsigned on the extended immediate. -/
def Obligations.ImmediateAddAndCompareComplete : Prop :=
  ∀ (rd : Reg) (imm : Word) (s : State), s.roomForNext →
    exec (.addi rd imm) s = .next (s.seqWrite rd (BitVec.ofInt 16 ((s.reg rd).toNat + imm.toInt))) ∧
    exec (.slti rd imm) s = .next (s.seqWrite rd (if (s.reg rd).toInt < imm.toInt then 1 else 0)) ∧
    exec (.sltiu rd imm) s = .next (s.seqWrite rd (if (s.reg rd).toNat < imm.toNat then 1 else 0))

/-- R131 to R133 (decision D1 for their encoding): the immediate shifts complete. -/
def Obligations.ImmediateShiftsComplete : Prop :=
  ∀ (rd : Reg) (shamt : BitVec 4) (s : State), s.roomForNext →
    exec (.slli rd shamt) s = .next (s.seqWrite rd (BitVec.ofNat 16 ((s.reg rd).toNat * 2 ^ shamt.toNat))) ∧
    exec (.srli rd shamt) s = .next (s.seqWrite rd (BitVec.ofNat 16 ((s.reg rd).toNat / 2 ^ shamt.toNat))) ∧
    exec (.srai rd shamt) s = .next (s.seqWrite rd (BitVec.ofInt 16 ((s.reg rd).toInt / 2 ^ shamt.toNat)))

/-- R134 to R137: ori, andi, xori and li complete. -/
def Obligations.ImmediateLogicAndLiComplete : Prop :=
  ∀ (rd : Reg) (imm : Word) (s : State), s.roomForNext →
    exec (.ori rd imm) s = .next (s.seqWrite rd (s.reg rd ||| imm)) ∧
    exec (.andi rd imm) s = .next (s.seqWrite rd (s.reg rd &&& imm)) ∧
    exec (.xori rd imm) s = .next (s.seqWrite rd (s.reg rd ^^^ imm)) ∧
    exec (.li rd imm) s = .next (s.seqWrite rd imm)

/-! ## Branches, jumps and upper immediates (43_b_type.md, 46_j_type.md, 47_u_type.md) -/

/-- The rule all branches share: taken to `pc + off`, else on to `pc + 2`, wherever that is a legal next PC. -/
def Sys2Proof.Statements.BranchRule (i : Instr) (taken : Prop) (off : Word) (s : State) : Prop :=
  (taken → legalPc (s.relTarget off) → exec i s = .next { s with pc := BitVec.ofInt 16 (s.relTarget off) }) ∧
  (¬ taken → s.roomForNext → exec i s = .next { s with pc := s.pc + 2 })

open Sys2Proof.Statements

/-- R138 to R141: beq, bne, bz and bnz. -/
def Obligations.EqualityBranchesComplete : Prop :=
  ∀ (rs1 rs2 : Reg) (off : Word) (s : State),
    BranchRule (.beq rs1 rs2 off) (s.reg rs1 = s.reg rs2) off s ∧
    BranchRule (.bne rs1 rs2 off) (s.reg rs1 ≠ s.reg rs2) off s ∧
    BranchRule (.bz rs1 off) ((s.reg rs1).toNat = 0) off s ∧
    BranchRule (.bnz rs1 off) ((s.reg rs1).toNat ≠ 0) off s

/-- R142 to R145: blt and bge on signed values, bltu and bgeu on unsigned ones. -/
def Obligations.OrderBranchesComplete : Prop :=
  ∀ (rs1 rs2 : Reg) (off : Word) (s : State),
    BranchRule (.blt rs1 rs2 off) ((s.reg rs1).toInt < (s.reg rs2).toInt) off s ∧
    BranchRule (.bge rs1 rs2 off) ((s.reg rs1).toInt ≥ (s.reg rs2).toInt) off s ∧
    BranchRule (.bltu rs1 rs2 off) ((s.reg rs1).toNat < (s.reg rs2).toNat) off s ∧
    BranchRule (.bgeu rs1 rs2 off) ((s.reg rs1).toNat ≥ (s.reg rs2).toNat) off s

/-- R151, R152 (decision D4 for the link value): j and jal complete where the target is a legal next PC. -/
def Obligations.JumpsComplete : Prop :=
  ∀ (rd : Reg) (off : Word) (s : State), legalPc (s.relTarget off) →
    exec (.j off) s = .next { s with pc := BitVec.ofInt 16 (s.relTarget off) } ∧
    exec (.jal rd off) s =
      .next { s with
        regs := setReg s.regs rd (BitVec.ofNat 16 (s.pc.toNat + 2))
        pc := BitVec.ofInt 16 (s.relTarget off) }

/-- R153, R154 (decision D4 for the wrap of auipc): lui and auipc complete. -/
def Obligations.UpperImmediatesComplete : Prop :=
  ∀ (rd : Reg) (imm : Word) (s : State), s.roomForNext →
    exec (.lui rd imm) s = .next (s.seqWrite rd imm) ∧
    exec (.auipc rd imm) s = .next (s.seqWrite rd (BitVec.ofNat 16 (s.pc.toNat + imm.toNat)))

/-- R111 (decisions D4, D5): a next PC outside 0..0xFFFF raises `BoundsError` of that integer and commits nothing: for the
instructions that only fall through, for a branch not taken, and for j, jal and a branch taken. -/
def Obligations.NextPcOutOfRangeFaults : Prop :=
  ∀ (i : Instr) (s : State),
    (fallsThroughOnly i = true ∨ (isBranch i = true ∧ relOffset s i = none) → ¬ s.roomForNext →
      exec i s = .next (s.faultedWith .boundsError ((s.pc.toNat : Int) + 2))) ∧
    ∀ off, relOffset s i = some off → ¬ legalPc (s.relTarget off) →
      exec i s = .next (s.faultedWith .boundsError (s.relTarget off))

/-! ## Loads and stores (44_s_type.md, 45_l_type.md, 20_memory.md) -/

/-- R146, R147: sb and sw complete at an effective address in bounds (even for sw). -/
def Obligations.StoresComplete : Prop :=
  ∀ (rs1 rs2 : Reg) (imm : Word) (s : State) (a : Nat),
    (s.reg rs1).toNat + imm.toInt = a → a ≤ 0xFFFF → s.roomForNext →
    exec (.sb rs1 rs2 imm) s =
      .next { s with mem := s.mem.write a (BitVec.ofNat 8 (s.reg rs2).toNat), pc := s.pc + 2 } ∧
    (a % 2 = 0 →
      exec (.sw rs1 rs2 imm) s =
        .next { s with
          mem := (s.mem.write a (BitVec.ofNat 8 (s.reg rs2).toNat)).write (a + 1)
            (BitVec.ofNat 8 ((s.reg rs2).toNat / 256))
          pc := s.pc + 2 })

/-- R148, R150: lb sign-extends and lbu zero-extends the byte at an effective address in bounds. -/
def Obligations.ByteLoadsComplete : Prop :=
  ∀ (rd rs2 : Reg) (imm : Word) (s : State) (a : Nat),
    (s.reg rs2).toNat + imm.toInt = a → a ≤ 0xFFFF → s.roomForNext →
    exec (.lb rd rs2 imm) s = .next (s.seqWrite rd (BitVec.ofInt 16 (signedField 8 (s.mem.read a).toNat))) ∧
    exec (.lbu rd rs2 imm) s = .next (s.seqWrite rd (BitVec.ofNat 16 (s.mem.read a).toNat))

/-- R149: lw reads `M[ea] + 256 * M[ea+1]` at an even effective address in bounds. -/
def Obligations.WordLoadCompletes : Prop :=
  ∀ (rd rs2 : Reg) (imm : Word) (s : State) (a : Nat),
    (s.reg rs2).toNat + imm.toInt = a → a ≤ 0xFFFF → a % 2 = 0 → s.roomForNext →
    exec (.lw rd rs2 imm) s =
      .next (s.seqWrite rd (BitVec.ofNat 16 ((s.mem.read a).toNat + 256 * (s.mem.read (a + 1)).toNat)))

/-- R48: a load or store whose effective address is outside 0..65535 raises `BoundsError(ea)`. That the address is an
integer, never reduced, is decision D4, and that the step commits nothing is decision D6 (log 12). -/
def Obligations.OutOfBoundsAccessFaults : Prop :=
  ∀ (r base : Reg) (imm : Word) (s : State) (ea : Int),
    (s.reg base).toNat + imm.toInt = ea → ea < 0 ∨ 65535 < ea →
    exec (.lb r base imm) s = .next (s.faultedWith .boundsError ea) ∧
    exec (.lbu r base imm) s = .next (s.faultedWith .boundsError ea) ∧
    exec (.lw r base imm) s = .next (s.faultedWith .boundsError ea) ∧
    exec (.sb base r imm) s = .next (s.faultedWith .boundsError ea) ∧
    exec (.sw base r imm) s = .next (s.faultedWith .boundsError ea)

/-- R49, R50, R100 (decisions D6, D9): a word access in bounds at an odd address raises `AlignmentError(ea)` and changes
neither memory nor the destination. -/
def Obligations.MisalignedWordAccessFaults : Prop :=
  ∀ (r base : Reg) (imm : Word) (s : State) (a : Nat),
    (s.reg base).toNat + imm.toInt = a → a ≤ 0xFFFF → a % 2 = 1 →
    exec (.lw r base imm) s = .next (s.faultedWith .alignmentError a) ∧
    exec (.sw base r imm) s = .next (s.faultedWith .alignmentError a)

/-- R188 (decision D9): a load or store whose address passes its checks still faults where `pc + 2` is no legal next PC,
and then neither the register nor the memory is written. -/
def Obligations.LoadStoreAtTheTopFaults : Prop :=
  ∀ (r base : Reg) (imm : Word) (s : State) (a : Nat),
    (s.reg base).toNat + imm.toInt = a → a ≤ 0xFFFF → ¬ s.roomForNext →
    ∀ i, i ∈ [Instr.lb r base imm, .lbu r base imm, .sb base r imm] ∨
        (a % 2 = 0 ∧ i ∈ [Instr.lw r base imm, .sw base r imm]) →
      exec i s = .next (s.faultedWith .boundsError ((s.pc.toNat : Int) + 2))

/-- R149's property (95_test_vectors.md W4): a word stored and loaded back from the same base and offset is the same
16 bits, whatever the registers. -/
def Obligations.StoreThenLoadRoundTrips : Prop :=
  ∀ (rd rs1 rs2 : Reg) (imm : Word) (s : State) (a : Nat),
    (s.reg rs1).toNat + imm.toInt = a → a ≤ 0xFFFF → a % 2 = 0 → s.pc.toNat + 4 ≤ 0xFFFF →
    ∃ t u, exec (.sw rs1 rs2 imm) s = .next t ∧ exec (.lw rd rs1 imm) t = .next u ∧ u.reg rd = s.reg rs2

/-! ## The system call (48_sys.md) -/

/-- R157 (decision D11; log 3): `ecall 0x3FF` halts in every configuration, with the pc left at the `ecall`. -/
def Obligations.ExitServiceHalts : Prop :=
  ∀ s : State, exec (.ecall 0x3FF) s = .next { s with status := .halted }

/-- R156 (decision D3; log 3): a code that the configuration does not map raises `UnknownServiceError(svc)`. -/
def Obligations.UnknownServiceFaults : Prop :=
  ∀ (svc : BitVec 10) (s : State), svc ≠ 0x3FF → s.cfg.services.lookup svc = none →
    exec (.ecall svc) s = .next (s.faultedWith .unknownServiceError svc.toNat)

/-- R158 (decision D19; log 2): PrintChar hands over the low byte of `a0`. -/
def Obligations.PrintCharSendsTheLowByte : Prop :=
  ∀ (svc : BitVec 10) (s : State), svc ≠ 0x3FF → s.cfg.services.lookup svc = some .printChar → s.roomForNext →
    exec (.ecall svc) s =
      .next { s with
        requests := s.requests ++ [.printChar (BitVec.ofNat 8 (s.reg s.cfg.a0).toNat)]
        pc := s.pc + 2 }

/-- R161: PrintInt hands over `s16(a0)`, an integer -32768..32767, writes nothing and goes on at `pc + 2` (decision D19;
log 2 for `a0`, log 3 for the code, log 8 for the record, log 12). -/
def Obligations.PrintIntSendsTheSignedValue : Prop :=
  ∀ (svc : BitVec 10) (s : State), svc ≠ 0x3FF → s.cfg.services.lookup svc = some .printInt → s.roomForNext →
    ∃ n : Int, n = signedField 16 (s.reg s.cfg.a0).toNat ∧ -32768 ≤ n ∧ n ≤ 32767 ∧
      exec (.ecall svc) s = .next { s with requests := s.requests ++ [.printInt n], pc := s.pc + 2 }

/-- R159 (decision D18; log 7): ReadChar writes the host's reply to `a0`: the first reply fixed in advance; beyond those
the free value, of which nothing is assumed; and the machine is stuck where there is none. -/
def Obligations.ReadCharTakesTheHostsReply : Prop :=
  ∀ (svc : BitVec 10) (s : State), svc ≠ 0x3FF → s.cfg.services.lookup svc = some .readChar → s.roomForNext →
    (∀ r rest, s.replies = r :: rest →
      exec (.ecall svc) s =
        .next { s.seqWrite s.cfg.a0 r with requests := s.requests ++ [.readChar], replies := rest }) ∧
    (∀ r, s.replies = [] → Config.hostReply s.draws = some r →
      exec (.ecall svc) s =
        .next { s.seqWrite s.cfg.a0 r with requests := s.requests ++ [.readChar], draws := s.draws + 1 }) ∧
    (s.replies = [] → Config.hostReply s.draws = none → exec (.ecall svc) s = .fault .hostNeverReplies)

/-- R160 (decision D19): PrintString hands over the bytes up to the first zero byte, and raises `BoundsError(0x10000)`
where no zero byte is found at or below 0xFFFF; a string that ends is not handed over where `pc + 2` is no legal next
PC (R162, R188, decisions D6, D9). -/
def Obligations.PrintStringSendsTheBytesBeforeTheZero : Prop :=
  ∀ (svc : BitVec 10) (s : State) (a : Nat), svc ≠ 0x3FF → s.cfg.services.lookup svc = some .printString →
    (s.reg s.cfg.a0).toNat = a →
    (∀ n, a + n ≤ 0xFFFF → s.mem.read (a + n) = 0 → (∀ k, k < n → s.mem.read (a + k) ≠ 0) →
      (s.roomForNext →
        exec (.ecall svc) s =
          .next { s with
            requests := s.requests ++ [.printString ((List.range n).map fun k => s.mem.read (a + k))]
            pc := s.pc + 2 }) ∧
      (¬ s.roomForNext → exec (.ecall svc) s = .next (s.faultedWith .boundsError ((s.pc.toNat : Int) + 2)))) ∧
    ((∀ x, a ≤ x → x ≤ 0xFFFF → s.mem.read x ≠ 0) →
      exec (.ecall svc) s = .next (s.faultedWith .boundsError 0x10000))

/-- R162, R188 (decisions D6, D9; log 10): a service whose `pc + 2` is no legal next PC faults, hands the host nothing and
waits for no reply. -/
def Obligations.ServiceAtTheTopSendsNothing : Prop :=
  ∀ (svc : BitVec 10) (s : State), svc ≠ 0x3FF → ¬ s.roomForNext →
    (s.cfg.services.lookup svc = some .printChar ∨ s.cfg.services.lookup svc = some .readChar ∨
      s.cfg.services.lookup svc = some .printInt) →
    exec (.ecall svc) s = .next (s.faultedWith .boundsError ((s.pc.toNat : Int) + 2))

/-! ## What instructions leave unchanged -/

/-- The instructions that write a register and nothing else (every R-type operation but jr, every I-type operation, jal,
lui, auipc): every register but `rd`, every byte of memory, the parameters and the exchange with the host are as
before, and so is the status unless the step faults (R19, R28, R52). -/
def Obligations.RegisterOnlyInstructionsFrame : Prop :=
  ∀ (i : Instr) (s t : State), writesRegisterOnly i = true → exec i s = .next t →
    sameRegsExcept (destRegs s.cfg i) s t ∧ sameBytesExcept [] s t ∧ sameHostSide s t ∧ statusKeptOrFaulted s t

/-- The branches, j and jr write no register and no memory (R19, R28, R52). -/
def Obligations.RedirectingInstructionsFrame : Prop :=
  ∀ (i : Instr) (s t : State), redirectsOnly i = true → exec i s = .next t →
    sameRegsExcept [] s t ∧ sameBytesExcept [] s t ∧ sameHostSide s t ∧ statusKeptOrFaulted s t

/-- sb and sw write no register, and no byte outside the one or two at the effective address (R19, R46, R51). -/
def Obligations.StoresFrame : Prop :=
  ∀ (rs1 rs2 : Reg) (imm : Word) (s t : State) (a : Nat), effectiveAddress (s.reg rs1) imm = a →
    (exec (.sb rs1 rs2 imm) s = .next t →
      sameRegsExcept [] s t ∧ sameBytesExcept [a] s t ∧ sameHostSide s t ∧ statusKeptOrFaulted s t) ∧
    (exec (.sw rs1 rs2 imm) s = .next t →
      sameRegsExcept [] s t ∧ sameBytesExcept [a, a + 1] s t ∧ sameHostSide s t ∧ statusKeptOrFaulted s t)

/-- lb, lw and lbu write `rd` and no byte of memory (R19, R52). -/
def Obligations.LoadsFrame : Prop :=
  ∀ (rd rs2 : Reg) (imm : Word) (s t : State) (i : Instr),
    i ∈ [Instr.lb rd rs2 imm, .lw rd rs2 imm, .lbu rd rs2 imm] → exec i s = .next t →
    sameRegsExcept [rd] s t ∧ sameBytesExcept [] s t ∧ sameHostSide s t ∧ statusKeptOrFaulted s t

/-- ecall writes no register but `a0`, and that only for ReadChar; it writes no byte of memory and no parameter; only
ReadChar uses up a reply, and only Exit changes the status of a step that does not fault (R19, R52, R155). -/
def Obligations.EcallFrame : Prop :=
  ∀ (svc : BitVec 10) (s t : State), exec (.ecall svc) s = .next t →
    sameRegsExcept (destRegs s.cfg (.ecall svc)) s t ∧ sameBytesExcept [] s t ∧ t.cfg = s.cfg ∧
    (serviceOf s.cfg svc ≠ some .readChar → t.replies = s.replies ∧ t.draws = s.draws) ∧
    (serviceOf s.cfg svc ≠ some .exit → statusKeptOrFaulted s t)

/-! ## The disassembler (49_disassembler.md) -/

/-- R165: for a step that completes by taking a branch, j or jal, the target printed for the fetched word is the pc after
the step; and a word that does not decode prints as an illegal word (R180, decision D16 for the characters). -/
def Obligations.DisassembledTargetIsTheNextPc : Prop :=
  (∀ (s t : State) (i : Instr) (off : Word), fetchDecode s = .run i → relOffset s i = some off → step s = .next t →
    t.status = .running →
    (operandTexts s.pc i).getLast? = some (target t.pc.toNat) ∧
      disassembleText s.cfg.functs (fetchWord s) s.pc =
        "0x".toList ++ hex4 s.pc.toNat ++ ": 0x".toList ++ hex4 (fetchWord s).toNat ++ "  ".toList ++ asmText s.pc i) ∧
  ∀ (t : FunctTable) (w pc : Word), (∀ i, decode t w ≠ .ok i) →
    disassembleText t w pc =
      "0x".toList ++ hex4 pc.toNat ++ ": 0x".toList ++ hex4 w.toNat ++ "  .word 0x".toList ++ hex4 w.toNat

/-- Lines of R182 (an inference of the spec's; decision D16 for the characters, decision D1 and log 1 for the words'
codes), one of each shape of R169 to R180, and a target below the address space and one above it. -/
def Obligations.DisassemblySamples : Prop :=
  disassemble defaultFunctTable 0x0000 0x0000 = "0x0000: 0x0000  add x0, x0" ∧
  disassemble defaultFunctTable 0xB440 0x0100 = "0x0100: 0xB440  jr x1" ∧
  disassemble defaultFunctTable 0xC440 0x0100 = "0x0100: 0xC440  jalr x1, x2" ∧
  disassemble defaultFunctTable 0x0E79 0x0000 = "0x0000: 0x0E79  li x1, 7" ∧
  disassemble defaultFunctTable 0x2859 0x0100 = "0x0100: 0x2859  slli x1, 4" ∧
  disassemble defaultFunctTable 0xE442 0x0100 = "0x0100: 0xE442  beq x1, x2, 0x00FC" ∧
  disassemble defaultFunctTable 0x4A52 0x0100 = "0x0100: 0x4A52  bz x1, 0x0108" ∧
  disassemble defaultFunctTable 0x8002 0x0004 = "0x0004: 0x8002  beq x0, x0, -0x000C" ∧
  disassemble defaultFunctTable 0x702A 0xFFFA = "0xFFFA: 0x702A  bge x0, x0, 0x10008" ∧
  disassemble defaultFunctTable 0xF443 0x0100 = "0x0100: 0xF443  sb x2, -1(x1)" ∧
  disassemble defaultFunctTable 0x1444 0x0100 = "0x0100: 0x1444  lb x1, 1(x2)" ∧
  disassemble defaultFunctTable 0x7E3D 0x0100 = "0x0100: 0x7E3D  j 0x00FE" ∧
  disassemble defaultFunctTable 0xBE7D 0x0100 = "0x0100: 0xBE7D  jal x1, 0x02FE" ∧
  disassemble defaultFunctTable 0x7E7E 0x0100 = "0x0100: 0x7E7E  lui x1, 511" ∧
  disassemble defaultFunctTable 0x8056 0x0100 = "0x0100: 0x8056  auipc x1, 2" ∧
  disassemble defaultFunctTable 0xFFC7 0x0004 = "0x0004: 0xFFC7  ecall 1023" ∧
  disassemble defaultFunctTable 0xD000 0x0100 = "0x0100: 0xD000  .word 0xD000"

/-! ## Reset, loading and the signal level (70_reset_and_hazards.md, 10_state.md) -/

/-- R27, R21, R32: after reset, from any state, and in a new machine, every register, every byte of memory and the pc are 0;
and `load` makes the pc 0. -/
def Obligations.ResetZeroesTheMachine : Prop :=
  (∀ t : State, (t = State.reset ∨ ∃ s : State, t = s.doReset) →
    (∀ r, t.reg r = 0) ∧ (∀ a, t.mem.read a = 0) ∧ t.pc = 0) ∧
  ∀ (s : State) (bytes : List Byte), (s.load bytes).pc = 0

/-- R205 (decision D14): `load` puts the image's bytes at the addresses from 0 up, cut at 64K, keeps every other byte and
every register, and makes the pc 0; it leaves the status Running, as reset does (R203, decision D24), and neither
changes a parameter or the record of the exchange with the host (log 5, 8). -/
def Obligations.LoadPlacesTheImage : Prop :=
  ∀ (s : State) (bytes : List Byte),
    (∀ a b, bytes[a]? = some b → a < 65536 → (s.load bytes).mem.read a = b) ∧
    (∀ a, bytes.length ≤ a ∨ 65536 ≤ a → (s.load bytes).mem.read a = s.mem.read a) ∧
    (∀ r, (s.load bytes).reg r = s.reg r) ∧ (s.load bytes).pc = 0 ∧
    (s.load bytes).status = .running ∧ s.doReset.status = .running ∧
    sameHostSide s (s.load bytes) ∧ sameHostSide s s.doReset
end

