-- ==== Sys2Proof/Laws/State.lean ====
section
/-!
SUPPORT. One lemma per field per update of State: taking a fault, committing an effect, the host's operations. And what
a register reads as after a write.
-/

namespace Sys2Proof.Machine

section fields
variable (s : State) (reason : FaultReason) (addr : Int) (e : Effect) (pc : Word)

@[simp] theorem raise_regs : (raise s reason addr).regs = s.regs := rfl
@[simp] theorem raise_pc : (raise s reason addr).pc = s.pc := rfl
@[simp] theorem raise_mem : (raise s reason addr).mem = s.mem := rfl
@[simp] theorem raise_status : (raise s reason addr).status = .faulted ⟨reason, s.pc, addr⟩ := rfl
@[simp] theorem raise_cfg : (raise s reason addr).cfg = s.cfg := rfl
@[simp] theorem raise_requests : (raise s reason addr).requests = s.requests := rfl
@[simp] theorem raise_replies : (raise s reason addr).replies = s.replies := rfl
@[simp] theorem raise_draws : (raise s reason addr).draws = s.draws := rfl
@[simp] theorem raise_reg (r : Reg) : (raise s reason addr).reg r = s.reg r := rfl

theorem commit_regs : (commit s e pc).regs = match e.wreg with
    | some (r, v) => setReg s.regs r v
    | none => s.regs := rfl
@[simp] theorem commit_pc : (commit s e pc).pc = pc := rfl
theorem commit_mem : (commit s e pc).mem = match e.wmem with
    | some st => s.mem.store st
    | none => s.mem := rfl
@[simp] theorem commit_status : (commit s e pc).status = if e.halt then .halted else s.status := rfl
@[simp] theorem commit_cfg : (commit s e pc).cfg = s.cfg := rfl
theorem commit_requests : (commit s e pc).requests = match e.request with
    | some q => s.requests ++ [q]
    | none => s.requests := rfl
@[simp] theorem commit_replies : (commit s e pc).replies = if e.takesReply then s.replies.tail else s.replies := rfl
@[simp] theorem commit_draws :
    (commit s e pc).draws = if e.takesReply && s.replies.isEmpty then s.draws + 1 else s.draws := rfl

@[simp] theorem doReset_regs : s.doReset.regs = Vector.replicate 8 0 := rfl
@[simp] theorem doReset_pc : s.doReset.pc = 0 := rfl
@[simp] theorem doReset_mem : s.doReset.mem = [] := rfl
@[simp] theorem doReset_status : s.doReset.status = .running := rfl
@[simp] theorem doReset_cfg : s.doReset.cfg = s.cfg := rfl

@[simp] theorem load_regs (bs : List Byte) : (s.load bs).regs = s.regs := rfl
@[simp] theorem load_pc (bs : List Byte) : (s.load bs).pc = 0 := rfl
@[simp] theorem load_mem (bs : List Byte) : (s.load bs).mem = s.mem.writeBytes 0 (bs.take 65536) := rfl
@[simp] theorem load_status (bs : List Byte) : (s.load bs).status = .running := rfl
@[simp] theorem load_cfg (bs : List Byte) : (s.load bs).cfg = s.cfg := rfl

@[simp] theorem pokeReg_regs (r : Reg) (v : Word) : (s.pokeReg r v).regs = setReg s.regs r v := rfl
@[simp] theorem pokeReg_pc (r : Reg) (v : Word) : (s.pokeReg r v).pc = s.pc := rfl
@[simp] theorem pokeReg_mem (r : Reg) (v : Word) : (s.pokeReg r v).mem = s.mem := rfl
@[simp] theorem pokeReg_status (r : Reg) (v : Word) : (s.pokeReg r v).status = s.status := rfl
@[simp] theorem pokePc_pc (v : Word) : (s.pokePc v).pc = v := rfl
@[simp] theorem pokePc_regs (v : Word) : (s.pokePc v).regs = s.regs := rfl
@[simp] theorem pokePc_mem (v : Word) : (s.pokePc v).mem = s.mem := rfl
@[simp] theorem pokePc_status (v : Word) : (s.pokePc v).status = s.status := rfl
@[simp] theorem pokeByte_mem (a : Word) (b : Byte) : (s.pokeByte a b).mem = s.mem.write a.toNat b := rfl
@[simp] theorem pokeByte_regs (a : Word) (b : Byte) : (s.pokeByte a b).regs = s.regs := rfl
@[simp] theorem pokeByte_pc (a : Word) (b : Byte) : (s.pokeByte a b).pc = s.pc := rfl
@[simp] theorem pokeByte_status (a : Word) (b : Byte) : (s.pokeByte a b).status = s.status := rfl

end fields

/-- What a register index reads as in a register file after one write. -/
theorem getElem_setReg (regs : Vector Word 8) (r q : Reg) (v : Word) :
    (setReg regs r v)[q.toNat]'q.isLt = if q = r then v else regs[q.toNat]'q.isLt := by
  by_cases h : q = r
  · subst h; simp [setReg]
  · have hne : r.toNat ≠ q.toNat := fun e => h (BitVec.eq_of_toNat_eq e.symm)
    simp [setReg, h, hne]

theorem reg_commit_none {s : State} {e : Effect} {pc : Word} (h : e.wreg = none) (q : Reg) :
    (commit s e pc).reg q = s.reg q := by
  simp only [State.reg, commit_regs, h]

theorem reg_commit_some {s : State} {e : Effect} {pc : Word} {r : Reg} {v : Word} (h : e.wreg = some (r, v)) (q : Reg) :
    (commit s e pc).reg q = if q = r then v else s.reg q := by
  simp only [State.reg, commit_regs, h, getElem_setReg]

end Sys2Proof.Machine
end

