-- ==== Sys2Proof/Laws/Memory.lean ====
section
/-!
SUPPORT. What a byte reads as after each memory operation (for every memory, canonical or not), and that every memory
operation keeps the canonical form.
-/

namespace Sys2Proof.Machine

/-! ### Reading after writing -/

theorem Memory.read_cons (c : Host.Cell) (m : Memory) (x : Nat) :
    Memory.read (c :: m) x = if c.1 = x then c.2 else Memory.read m x := rfl

theorem Memory.read_erase (m : Memory) (a x : Nat) :
    (m.erase a).read x = if x = a then unlistedByte else m.read x := by
  induction m with
  | nil => simp [Memory.erase, Memory.read]
  | cons c rest ih =>
    have step : Memory.erase (c :: rest) a = if c.1 = a then Memory.erase rest a else c :: Memory.erase rest a := by
      simp only [Memory.erase, List.filter_cons]; split <;> simp_all
    rw [step, Memory.read_cons]
    by_cases hc : c.1 = a <;> by_cases hx : x = a <;> by_cases hcx : c.1 = x <;> simp_all [Memory.read_cons]

theorem Memory.read_insert (m : Memory) (a x : Nat) (b : Byte) (h : ∀ c ∈ m, c.1 ≠ a) :
    (Memory.insert a b m).read x = if x = a then b else m.read x := by
  induction m with
  | nil => simp only [Memory.insert, Memory.read_cons, eq_comm (a := a) (b := x)]
  | cons c rest ih =>
    have hc : c.1 ≠ a := h c (by simp)
    have ih := ih fun d hd => h d (by simp [hd])
    rw [Memory.insert]
    split
    · simp only [Memory.read_cons, eq_comm (a := a) (b := x)]
    · rw [Memory.read_cons, Memory.read_cons, ih]
      by_cases hcx : c.1 = x
      · rw [if_pos hcx, if_pos hcx, if_neg fun e => hc (hcx.trans e)]
      · rw [if_neg hcx, if_neg hcx]

/-- What every byte reads as after one byte is written (R46, R47). -/
theorem Memory.read_write (m : Memory) (a x : Nat) (b : Byte) :
    (m.write a b).read x = if x = a then b else m.read x := by
  unfold Memory.write
  split
  · next h => subst h; exact m.read_erase a x
  · rw [Memory.read_insert _ _ _ _ (by simp [Memory.erase]), Memory.read_erase]
    by_cases hx : x = a <;> simp [hx]

theorem Memory.read_writeWord (m : Memory) (a x : Nat) (v : Word) :
    (m.writeWord a v).read x =
      if x = a then v.extractLsb' 0 8 else if x = a + 1 then v.extractLsb' 8 8 else m.read x := by
  unfold Memory.writeWord
  rw [Memory.read_write, Memory.read_write]
  by_cases hx : x = a <;> by_cases hx1 : x = a + 1 <;> simp [hx, hx1]

theorem Memory.read_writeBytes (bs : List Byte) (m : Memory) (a x : Nat) :
    (m.writeBytes a bs).read x = if h : a ≤ x ∧ x < a + bs.length then bs[x - a] else m.read x := by
  induction bs generalizing m a with
  | nil =>
    simp [Memory.writeBytes]
  | cons b rest ih =>
    rw [Memory.writeBytes, ih, Memory.read_write]
    by_cases hx : x = a
    · subst hx
      simp
    · by_cases h : a + 1 ≤ x ∧ x < a + 1 + rest.length
      · have h2 : a ≤ x ∧ x < a + (b :: rest).length := by simp; omega
        have h3 : x - a = (x - (a + 1)) + 1 := by omega
        simp only [h, h2, and_self, dite_true, h3, List.getElem_cons_succ]
      · have h2 : ¬ (a ≤ x ∧ x < a + (b :: rest).length) := by simp; omega
        simp only [h, h2, dite_false, hx, if_false]

theorem toNat_wordOfBytes (lo hi : Byte) : (wordOfBytes lo hi).toNat = lo.toNat + 256 * hi.toNat := by
  have h1 := lo.isLt
  rw [wordOfBytes, BitVec.toNat_append, Nat.shiftLeft_eq, Nat.mul_comm, ← Nat.two_pow_add_eq_or_of_lt h1]
  omega

/-- `MemRead(a, 2)` as R45 writes it. -/
theorem Memory.toNat_readWord (m : Memory) (a : Nat) :
    (m.readWord a).toNat = (m.read a).toNat + 256 * (m.read (a + 1)).toNat := toNat_wordOfBytes _ _

theorem Memory.readWord_writeWord (m : Memory) (a : Nat) (v : Word) : (m.writeWord a v).readWord a = v := by
  apply BitVec.eq_of_toNat_eq
  rw [Memory.toNat_readWord, Memory.read_writeWord, Memory.read_writeWord]
  simp
  omega

/-- What `readString` finds (R160): the bytes before the first zero byte within `fuel` bytes. -/
theorem Memory.readString_some {m : Memory} {fuel a : Nat} {bytes : List Byte} :
    m.readString a fuel = some bytes ↔
      bytes.length < fuel ∧ m.read (a + bytes.length) = 0 ∧
        ∀ k (h : k < bytes.length), bytes[k] = m.read (a + k) ∧ bytes[k] ≠ 0 := by
  induction fuel generalizing a bytes with
  | zero => simp [Memory.readString]
  | succ n ih =>
    rw [Memory.readString]
    by_cases h0 : m.read a = 0
    · simp only [h0, if_true, Option.some.injEq]
      constructor
      · rintro rfl; simpa using h0
      · rintro ⟨-, -, h⟩
        cases bytes with
        | nil => rfl
        | cons b rest => have := h 0 (by simp); simp_all
    · simp only [h0, if_false, Option.map_eq_some_iff, ih]
      constructor
      · rintro ⟨rest, ⟨h1, h2, h3⟩, rfl⟩
        refine ⟨by simp; omega, by rw [← h2]; congr 1; simp; omega, ?_⟩
        rintro (_ | k) hk
        · simpa using h0
        · have := h3 k (by simpa using hk)
          simpa [Nat.add_assoc, Nat.add_comm 1 k] using this
      · rintro ⟨h1, h2, h3⟩
        cases bytes with
        | nil => simp at h2; exact absurd h2 h0
        | cons b rest =>
          refine ⟨rest, ⟨by simpa using h1, by rw [← h2]; congr 1; simp; omega, ?_⟩, ?_⟩
          · intro k hk
            have := h3 (k + 1) (by simpa using hk)
            simpa [Nat.add_assoc, Nat.add_comm 1 k] using this
          · have := h3 0 (by simp)
            simp at this
            rw [this.1]

/-- `readString` finds no string exactly where none of the `fuel` bytes is zero (R160). -/
theorem Memory.readString_none {m : Memory} {fuel a : Nat} :
    m.readString a fuel = none ↔ ∀ k, k < fuel → m.read (a + k) ≠ 0 := by
  induction fuel generalizing a with
  | zero => simp [Memory.readString]
  | succ n ih =>
    rw [Memory.readString]
    by_cases h0 : m.read a = 0
    · simp only [h0, if_true, reduceCtorEq, false_iff, not_forall]
      exact ⟨0, by omega, by simpa using h0⟩
    · simp only [h0, if_false, Option.map_eq_none_iff, ih]
      constructor
      · rintro h (_ | k) hk
        · simpa using h0
        · have := h k (by omega)
          simpa [Nat.add_assoc, Nat.add_comm 1 k] using this
      · intro h k hk
        have := h (k + 1) (by omega)
        simpa [Nat.add_assoc, Nat.add_comm 1 k] using this

/-! ### The canonical form is kept -/

theorem Memory.wf_nil : Memory.wf [] := by simp [Memory.wf]

theorem Memory.wf_erase {m : Memory} (h : m.wf) (a : Nat) : (m.erase a).wf :=
  ⟨h.1.filter _, fun c hc => h.2 c (List.mem_filter.1 hc).1⟩

theorem Memory.mem_insert {m : Memory} {a : Nat} {b : Byte} {c : Host.Cell} :
    c ∈ Memory.insert a b m ↔ c = (a, b) ∨ c ∈ m := by
  induction m with
  | nil => simp [Memory.insert]
  | cons d rest ih =>
    rw [Memory.insert]
    split
    · simp
    · simp only [List.mem_cons, ih]; tauto

theorem Memory.wf_insert {m : Memory} (h : m.wf) {a : Nat} {b : Byte} (hm : ∀ c ∈ m, c.1 ≠ a) (ha : a < 65536)
    (hb : b ≠ unlistedByte) : Memory.wf (Memory.insert a b m) := by
  induction m with
  | nil => exact ⟨List.pairwise_singleton _ _, by simpa [Memory.insert] using ⟨ha, hb⟩⟩
  | cons d rest ih =>
    obtain ⟨hp, hall⟩ := h
    rw [List.pairwise_cons] at hp
    have hd : d.1 ≠ a := hm d (by simp)
    have ih := ih ⟨hp.2, fun c hc => hall c (by simp [hc])⟩ fun c hc => hm c (by simp [hc])
    rw [Memory.insert]
    split
    · next hlt =>
      refine ⟨List.pairwise_cons.2 ⟨?_, List.pairwise_cons.2 hp⟩, ?_⟩
      · intro c hc
        rcases List.mem_cons.1 hc with rfl | hc
        · exact hlt
        · exact Nat.lt_trans hlt (hp.1 c hc)
      · intro c hc
        rcases List.mem_cons.1 hc with rfl | hc
        · exact ⟨ha, hb⟩
        · exact hall c hc
    · next hlt =>
      refine ⟨List.pairwise_cons.2 ⟨?_, ih.1⟩, ?_⟩
      · intro c hc
        rcases Memory.mem_insert.1 hc with rfl | hc
        · exact Nat.lt_of_le_of_ne (Nat.le_of_not_lt hlt) hd
        · exact hp.1 c hc
      · intro c hc
        rcases List.mem_cons.1 hc with rfl | hc
        · exact hall _ (by simp)
        · exact ih.2 c hc

theorem Memory.wf_write {m : Memory} (h : m.wf) {a : Nat} (ha : a < 65536) (b : Byte) : (m.write a b).wf := by
  unfold Memory.write
  split
  · exact Memory.wf_erase h a
  · next hb => exact Memory.wf_insert (Memory.wf_erase h a) (by simp [Memory.erase]) ha hb

theorem Memory.wf_writeWord {m : Memory} (h : m.wf) {a : Nat} (ha : a + 1 < 65536) (v : Word) :
    (m.writeWord a v).wf := Memory.wf_write (Memory.wf_write h (by omega) _) ha _

theorem Memory.wf_writeBytes {m : Memory} (h : m.wf) {a : Nat} {bs : List Byte} (ha : a + bs.length ≤ 65536) :
    (m.writeBytes a bs).wf := by
  induction bs generalizing m a with
  | nil => exact h
  | cons b rest ih =>
    have hl : a + (rest.length + 1) ≤ 65536 := ha
    exact ih (Memory.wf_write h (by omega) b) (by omega)

/-- The memory of the reset state is canonical. -/
theorem reset_mem_wf : State.reset.mem.wf := Memory.wf_nil

/-- `load` keeps the canonical form (R205). -/
theorem load_mem_wf {s : State} (h : s.mem.wf) (bs : List Byte) : (s.load bs).mem.wf :=
  Memory.wf_writeBytes h (by simp)

/-- The host's byte accessor keeps the canonical form (R38). -/
theorem pokeByte_mem_wf {s : State} (h : s.mem.wf) (a : Word) (b : Byte) : (s.pokeByte a b).mem.wf :=
  Memory.wf_write h a.isLt b

end Sys2Proof.Machine
end

