-- ==== Sys2Proof/Laws/Ops.lean ====
section
/-!
SUPPORT. For each shared operation, one lemma that says everything it can answer; later proofs cite these instead of
unfolding the operation.
-/

namespace Sys2Proof.Machine

/-! ### The PC mux and the commit (R110, R111) -/

@[simp] theorem pcMux_seq (pc : Word) : pcMux pc .seq = (pc.toNat : Int) + 2 := rfl
@[simp] theorem pcMux_rel (pc off : Word) : pcMux pc (.rel off) = (pc.toNat : Int) + off.toInt := rfl
@[simp] theorem pcMux_abs (pc v : Word) : pcMux pc (.abs v) = (v.toNat : Int) := rfl
@[simp] theorem pcMux_stay (pc : Word) : pcMux pc .stay = (pc.toNat : Int) := rfl

theorem inPcRange_iff (t : Int) : inPcRange t = true ↔ 0 ≤ t ∧ t ≤ 0xFFFF := by simp [inPcRange]

/-- A register value is always a legal next PC (R111: "An `Abs` target is always in range"). -/
theorem inPcRange_toNat (v : Word) : inPcRange (v.toNat : Int) = true := by
  rw [inPcRange_iff]; have := v.isLt; omega

@[simp] theorem ofInt_toNat_word (v : Word) : BitVec.ofInt 16 (v.toNat : Int) = v := by simp

@[simp] theorem ofInt_seq (pc : Word) : BitVec.ofInt 16 ((pc.toNat : Int) + 2) = pc + 2 := by
  rw [BitVec.ofInt_add, ofInt_toNat_word]; rfl

@[simp] theorem ofInt_rel (pc off : Word) : BitVec.ofInt 16 ((pc.toNat : Int) + off.toInt) = pc + off := by
  rw [BitVec.ofInt_add, ofInt_toNat_word, BitVec.ofInt_toInt]

/-- A next PC that passed the range check is written exactly. -/
theorem toNat_ofInt_of_inPcRange {t : Int} (h : inPcRange t = true) : ((BitVec.ofInt 16 t).toNat : Int) = t := by
  rw [inPcRange_iff] at h
  rw [BitVec.toNat_ofInt]
  omega

theorem complete_of_inRange {s : State} {e : Effect} (h : inPcRange (pcMux s.pc e.next) = true) :
    complete s e = .next (commit s e (BitVec.ofInt 16 (pcMux s.pc e.next))) := by
  rw [complete, if_pos h]

theorem complete_of_outOfRange {s : State} {e : Effect} (h : inPcRange (pcMux s.pc e.next) = false) :
    complete s e = .next (raise s .boundsError (pcMux s.pc e.next)) := by
  rw [complete, h, if_neg (by simp)]

/-- All that `complete` can answer: a commit, or the range fault (R111). -/
theorem complete_next {s t : State} {e : Effect} :
    complete s e = .next t ↔
      (inPcRange (pcMux s.pc e.next) = true ∧ t = commit s e (BitVec.ofInt 16 (pcMux s.pc e.next))) ∨
      (inPcRange (pcMux s.pc e.next) = false ∧ t = raise s .boundsError (pcMux s.pc e.next)) := by
  cases h : inPcRange (pcMux s.pc e.next)
  · rw [complete_of_outOfRange h]; simp [eq_comm]
  · rw [complete_of_inRange h]; simp [eq_comm]

/-- `complete` always answers a next state. -/
theorem complete_exists (s : State) (e : Effect) : ∃ t, complete s e = .next t := by
  unfold complete; split <;> exact ⟨_, rfl⟩

/-! ### The load/store path (R48 to R50, R109) -/

/-- All that the access checks can answer. -/
theorem checkAccess_cases (width : Width) (ea : Int) :
    ((ea < 0 ∨ 0xFFFF < ea) ∧ checkAccess width ea = .error .boundsError) ∨
    ((0 ≤ ea ∧ ea ≤ 0xFFFF) ∧ (width = .word ∧ ea % 2 = 1) ∧ checkAccess width ea = .error .alignmentError) ∨
    ((0 ≤ ea ∧ ea ≤ 0xFFFF) ∧ ¬ (width = .word ∧ ea % 2 = 1) ∧ checkAccess width ea = .ok ea.toNat) := by
  unfold checkAccess
  split
  · next h => exact .inl ⟨h, rfl⟩
  · next h =>
    split
    · next h' => exact .inr (.inl ⟨by omega, h', rfl⟩)
    · next h' => exact .inr (.inr ⟨by omega, h', rfl⟩)

theorem checkAccess_outOfBounds {width : Width} {ea : Int} (h : ea < 0 ∨ 0xFFFF < ea) :
    checkAccess width ea = .error .boundsError := by
  rcases checkAccess_cases width ea with h' | h' | h'
  · exact h'.2
  all_goals omega

theorem checkAccess_misaligned {ea : Int} (h : 0 ≤ ea ∧ ea ≤ 0xFFFF) (hodd : ea % 2 = 1) :
    checkAccess .word ea = .error .alignmentError := by
  rcases checkAccess_cases .word ea with h' | h' | h'
  · omega
  · exact h'.2.2
  · exact absurd ⟨rfl, hodd⟩ h'.2.1

theorem checkAccess_byte {ea : Int} (h : 0 ≤ ea ∧ ea ≤ 0xFFFF) : checkAccess .byte ea = .ok ea.toNat := by
  rcases checkAccess_cases .byte ea with h' | h' | h'
  · omega
  · exact absurd h'.2.1.1 (by decide)
  · exact h'.2.2

theorem checkAccess_word {ea : Int} (h : 0 ≤ ea ∧ ea ≤ 0xFFFF) (heven : ea % 2 = 0) :
    checkAccess .word ea = .ok ea.toNat := by
  rcases checkAccess_cases .word ea with h' | h' | h'
  · omega
  · omega
  · exact h'.2.2

/-- An address that passed the checks is the effective address, and a word there lies in bounds whole (R49). -/
theorem checkAccess_ok {width : Width} {ea : Int} {a : Nat} (h : checkAccess width ea = .ok a) :
    ea = a ∧ a < 65536 ∧ (width = .word → a % 2 = 0 ∧ a + 1 < 65536) := by
  rcases checkAccess_cases width ea with h' | h' | h'
  · rw [h'.2] at h; cases h
  · rw [h'.2.2] at h; cases h
  · rw [h'.2.2] at h
    injection h with h
    refine ⟨by omega, by omega, fun hw => ?_⟩
    have : ¬ ea % 2 = 1 := fun e => h'.2.1 ⟨hw, e⟩
    omega

/-- All that a load can answer. -/
theorem loadInto_next {rd : Reg} {width : Width} {ea : Int} {value : Memory → Nat → Word} {s t : State} :
    loadInto rd width ea value s = .next t ↔
      (∃ a, checkAccess width ea = .ok a ∧ complete s { wreg := some (rd, value s.mem a) } = .next t) ∨
      (∃ reason, checkAccess width ea = .error reason ∧ t = raise s reason ea) := by
  unfold loadInto
  cases h : checkAccess width ea <;> simp [eq_comm]

/-- All that a store can answer. -/
theorem storeAt_next {width : Width} {ea : Int} {store : Nat → Store} {s t : State} :
    storeAt width ea store s = .next t ↔
      (∃ a, checkAccess width ea = .ok a ∧ complete s { wmem := some (store a) } = .next t) ∨
      (∃ reason, checkAccess width ea = .error reason ∧ t = raise s reason ea) := by
  unfold storeAt
  cases h : checkAccess width ea <;> simp [eq_comm]

/-! ### The services (R155 to R162) -/

/-- All that `ecall` can answer, by the service its code selects. -/
theorem execEcall_eq (svc : BitVec 10) (s : State) :
    (serviceOf s.cfg svc = none ∧ execEcall svc s = .next (raise s .unknownServiceError svc.toNat)) ∨
    (serviceOf s.cfg svc = some .exit ∧ execEcall svc s = serviceExit s) ∨
    (serviceOf s.cfg svc = some .printChar ∧ execEcall svc s = servicePrintChar s) ∨
    (serviceOf s.cfg svc = some .readChar ∧ execEcall svc s = serviceReadChar s) ∨
    (serviceOf s.cfg svc = some .printString ∧ execEcall svc s = servicePrintString s) ∨
    (serviceOf s.cfg svc = some .printInt ∧ execEcall svc s = servicePrintInt s) := by
  unfold execEcall
  rcases serviceOf s.cfg svc with _ | (_ | _ | _ | _ | _) <;> simp

theorem serviceOf_exitCode (c : Config) : serviceOf c exitCode = some .exit := by simp [serviceOf]

/-- All that ReadChar can answer (R159, R162). -/
theorem serviceReadChar_cases (s : State) :
    (∃ r, s.nextReply = some r ∧
      serviceReadChar s =
        complete s { wreg := some (s.cfg.a0, r), request := some .readChar, takesReply := true }) ∨
    (s.nextReply = none ∧ inPcRange ((s.pc.toNat : Int) + 2) = true ∧
      serviceReadChar s = .fault .hostNeverReplies) ∨
    (s.nextReply = none ∧ inPcRange ((s.pc.toNat : Int) + 2) = false ∧
      serviceReadChar s = .next (raise s .boundsError ((s.pc.toNat : Int) + 2))) := by
  unfold serviceReadChar
  cases s.nextReply with
  | some r => exact .inl ⟨r, rfl, rfl⟩
  | none =>
    by_cases h : inPcRange (pcMux s.pc .seq) = true
    · exact .inr (.inl ⟨rfl, h, if_pos h⟩)
    · exact .inr (.inr ⟨rfl, Bool.eq_false_iff.2 h, if_neg h⟩)

/-- All that PrintString can answer (R160). -/
theorem servicePrintString_cases (s : State) :
    (∃ bytes, s.mem.readString s.a0v.toNat (65536 - s.a0v.toNat) = some bytes ∧
      servicePrintString s = complete s { request := some (.printString bytes) }) ∨
    (s.mem.readString s.a0v.toNat (65536 - s.a0v.toNat) = none ∧
      servicePrintString s = .next (raise s .boundsError 0x10000)) := by
  unfold servicePrintString
  cases s.mem.readString s.a0v.toNat (65536 - s.a0v.toNat) with
  | some bytes => exact .inl ⟨bytes, rfl, rfl⟩
  | none => exact .inr ⟨rfl, rfl⟩

/-! ### The step (R94 to R99) -/

theorem step_of_run {s : State} {i : Instr} (h : fetchDecode s = .run i) : step s = exec i s := by
  rw [step, h]

theorem step_of_trap {s : State} {reason : FaultReason} {addr : Int} (h : fetchDecode s = .trap reason addr) :
    step s = .next (raise s reason addr) := by
  rw [step, h]

theorem step_of_idle {s : State} (h : fetchDecode s = .idle) : step s = .next s := by
  rw [step, h]

theorem fetchDecode_idle_iff (s : State) : fetchDecode s = .idle ↔ s.status ≠ .running := by
  unfold fetchDecode
  cases hs : s.status with
  | running =>
    simp only [ne_eq, not_true, iff_false]
    split
    · simp
    · split
      · simp
      · split <;> simp
  | halted => simp
  | faulted f => simp

/-- When an instruction is executed (R96, steps 1 to 3). -/
theorem fetchDecode_run_iff (s : State) (i : Instr) :
    fetchDecode s = .run i ↔
      s.status = .running ∧ s.pc.toNat % 2 = 0 ∧ s.pc ∉ s.cfg.execForbidden ∧
        decode s.cfg.functs (fetchWord s) = .ok i := by
  unfold fetchDecode
  cases hs : s.status with
  | running =>
    by_cases h1 : s.pc.toNat % 2 = 1
    · simp [h1]
    · by_cases h2 : s.pc ∈ s.cfg.execForbidden
      · simp [h1, h2]
      · have h0 : s.pc.toNat % 2 = 0 := by omega
        simp only [h2, h0, if_false, not_false_eq_true, true_and, zero_ne_one]
        cases decode s.cfg.functs (fetchWord s) <;> simp
  | halted => simp
  | faulted f => simp

/-- All that the first half of a step can trap on, in the order of R188. -/
theorem fetchDecode_trap {s : State} {reason : FaultReason} {addr : Int} (h : fetchDecode s = .trap reason addr) :
    s.status = .running ∧
      ((reason = .alignmentError ∧ addr = s.pc.toNat ∧ s.pc.toNat % 2 = 1) ∨
       (reason = .boundsError ∧ addr = s.pc.toNat ∧ s.pc.toNat % 2 = 0 ∧ s.pc ∈ s.cfg.execForbidden) ∨
       (reason = .decodeError ∧ addr = (fetchWord s).toNat ∧ s.pc.toNat % 2 = 0 ∧ s.pc ∉ s.cfg.execForbidden ∧
        ∃ e, decode s.cfg.functs (fetchWord s) = .error e)) := by
  unfold fetchDecode at h
  cases hs : s.status with
  | running =>
    rw [hs] at h
    dsimp only at h
    refine ⟨rfl, ?_⟩
    split at h
    · next h1 => injection h with hr ha; exact .inl ⟨hr.symm, ha.symm, h1⟩
    · next h1 =>
      have h0 : s.pc.toNat % 2 = 0 := by omega
      split at h
      · next h2 => injection h with hr ha; exact .inr (.inl ⟨hr.symm, ha.symm, h0, h2⟩)
      · next h2 =>
        split at h
        · cases h
        · next e he => injection h with hr ha; exact .inr (.inr ⟨hr.symm, ha.symm, h0, h2, e, he⟩)
  | halted => rw [hs] at h; cases h
  | faulted f => rw [hs] at h; cases h

/-- All that a step that answers a next state did: nothing, a fetch or decode fault, or an instruction. -/
theorem step_next_cases {s t : State} (h : step s = .next t) :
    (s.status ≠ .running ∧ t = s) ∨
    (∃ reason addr, fetchDecode s = .trap reason addr ∧ t = raise s reason addr) ∨
    (∃ i, fetchDecode s = .run i ∧ exec i s = .next t) := by
  cases hf : fetchDecode s with
  | idle =>
    rw [step_of_idle hf] at h
    injection h with h
    exact .inl ⟨(fetchDecode_idle_iff s).1 hf, h.symm⟩
  | trap reason addr =>
    rw [step_of_trap hf] at h
    injection h with h
    exact .inr (.inl ⟨reason, addr, rfl, h.symm⟩)
  | run i =>
    rw [step_of_run hf] at h
    exact .inr (.inr ⟨i, rfl, h⟩)

/-- The only error the decoder answers on a word (R87). -/
theorem decode_error {t : FunctTable} {w : Word} {e : DecodeError} (h : decode t w = .error e) : e = .illegal w := by
  unfold decode orIllegal at h
  repeat' split at h
  all_goals first | (injection h with h; exact h.symm) | cases h

/-- The word a fetch reads after `placeFetchWord` put it there. -/
theorem fetchWord_placeFetchWord (s : State) (w : Word) : fetchWord (placeFetchWord s w) = w :=
  Memory.readWord_writeWord _ _ _

end Sys2Proof.Machine
end

