-- ==== Sys2Proof/Laws/Encode.lean ====
section
/-!
SUPPORT. What each field extractor of the decoder reads from each format's word of the encoder, and what the
sign-extension unit makes of an immediate that fits its field.
-/

namespace Sys2Proof

/-! ### rWord -/

@[simp] theorem opField_rWord (f4 : BitVec 4) (rs2 rd : Reg) (f3 : BitVec 3) : opField (rWord f4 rs2 rd f3) = 0#3 := by
  apply BitVec.eq_of_getLsbD_eq
  intro n hn
  simp only [opField, rWord, BitVec.getLsbD_extractLsb', BitVec.getLsbD_append]
  interval_cases n <;> simp

@[simp] theorem funct3_rWord (f4 : BitVec 4) (rs2 rd : Reg) (f3 : BitVec 3) : funct3 (rWord f4 rs2 rd f3) = f3 := by
  apply BitVec.eq_of_getLsbD_eq
  intro n hn
  simp only [funct3, rWord, BitVec.getLsbD_extractLsb', BitVec.getLsbD_append]
  interval_cases n <;> simp

@[simp] theorem rdField_rWord (f4 : BitVec 4) (rs2 rd : Reg) (f3 : BitVec 3) : rdField (rWord f4 rs2 rd f3) = rd := by
  apply BitVec.eq_of_getLsbD_eq
  intro n hn
  simp only [rdField, rWord, BitVec.getLsbD_extractLsb', BitVec.getLsbD_append]
  interval_cases n <;> simp

@[simp] theorem rs2Field_rWord (f4 : BitVec 4) (rs2 rd : Reg) (f3 : BitVec 3) : rs2Field (rWord f4 rs2 rd f3) = rs2 := by
  apply BitVec.eq_of_getLsbD_eq
  intro n hn
  simp only [rs2Field, rWord, BitVec.getLsbD_extractLsb', BitVec.getLsbD_append]
  interval_cases n <;> simp

@[simp] theorem funct4_rWord (f4 : BitVec 4) (rs2 rd : Reg) (f3 : BitVec 3) : funct4 (rWord f4 rs2 rd f3) = f4 := by
  apply BitVec.eq_of_getLsbD_eq
  intro n hn
  simp only [funct4, rWord, BitVec.getLsbD_extractLsb', BitVec.getLsbD_append]
  interval_cases n <;> simp

/-! ### iWord -/

@[simp] theorem opField_iWord (imm : Word) (rd : Reg) (f3 : BitVec 3) : opField (iWord imm rd f3) = 1#3 := by
  apply BitVec.eq_of_getLsbD_eq
  intro n hn
  simp only [opField, iWord, BitVec.getLsbD_extractLsb', BitVec.getLsbD_append]
  interval_cases n <;> simp

@[simp] theorem funct3_iWord (imm : Word) (rd : Reg) (f3 : BitVec 3) : funct3 (iWord imm rd f3) = f3 := by
  apply BitVec.eq_of_getLsbD_eq
  intro n hn
  simp only [funct3, iWord, BitVec.getLsbD_extractLsb', BitVec.getLsbD_append]
  interval_cases n <;> simp

@[simp] theorem rdField_iWord (imm : Word) (rd : Reg) (f3 : BitVec 3) : rdField (iWord imm rd f3) = rd := by
  apply BitVec.eq_of_getLsbD_eq
  intro n hn
  simp only [rdField, iWord, BitVec.getLsbD_extractLsb', BitVec.getLsbD_append]
  interval_cases n <;> simp

/-! ### shiftWord -/

@[simp] theorem opField_shiftWord (sel : BitVec 3) (shamt : BitVec 4) (rd : Reg) : opField (shiftWord sel shamt rd) = 1#3 := by
  apply BitVec.eq_of_getLsbD_eq
  intro n hn
  simp only [opField, shiftWord, BitVec.getLsbD_extractLsb', BitVec.getLsbD_append]
  interval_cases n <;> simp

@[simp] theorem funct3_shiftWord (sel : BitVec 3) (shamt : BitVec 4) (rd : Reg) : funct3 (shiftWord sel shamt rd) = 3#3 := by
  apply BitVec.eq_of_getLsbD_eq
  intro n hn
  simp only [funct3, shiftWord, BitVec.getLsbD_extractLsb', BitVec.getLsbD_append]
  interval_cases n <;> simp

@[simp] theorem rdField_shiftWord (sel : BitVec 3) (shamt : BitVec 4) (rd : Reg) : rdField (shiftWord sel shamt rd) = rd := by
  apply BitVec.eq_of_getLsbD_eq
  intro n hn
  simp only [rdField, shiftWord, BitVec.getLsbD_extractLsb', BitVec.getLsbD_append]
  interval_cases n <;> simp

@[simp] theorem selField_shiftWord (sel : BitVec 3) (shamt : BitVec 4) (rd : Reg) : selField (shiftWord sel shamt rd) = sel := by
  apply BitVec.eq_of_getLsbD_eq
  intro n hn
  simp only [selField, shiftWord, BitVec.getLsbD_extractLsb', BitVec.getLsbD_append]
  interval_cases n <;> simp

@[simp] theorem shamtField_shiftWord (sel : BitVec 3) (shamt : BitVec 4) (rd : Reg) : shamtField (shiftWord sel shamt rd) = shamt := by
  apply BitVec.eq_of_getLsbD_eq
  intro n hn
  simp only [shamtField, shiftWord, BitVec.getLsbD_extractLsb', BitVec.getLsbD_append]
  interval_cases n <;> simp

/-! ### bWord -/

@[simp] theorem opField_bWord (off : Word) (rs2 rs1 : Reg) (f3 : BitVec 3) : opField (bWord off rs2 rs1 f3) = 2#3 := by
  apply BitVec.eq_of_getLsbD_eq
  intro n hn
  simp only [opField, bWord, BitVec.getLsbD_extractLsb', BitVec.getLsbD_append]
  interval_cases n <;> simp

@[simp] theorem funct3_bWord (off : Word) (rs2 rs1 : Reg) (f3 : BitVec 3) : funct3 (bWord off rs2 rs1 f3) = f3 := by
  apply BitVec.eq_of_getLsbD_eq
  intro n hn
  simp only [funct3, bWord, BitVec.getLsbD_extractLsb', BitVec.getLsbD_append]
  interval_cases n <;> simp

@[simp] theorem rdField_bWord (off : Word) (rs2 rs1 : Reg) (f3 : BitVec 3) : rdField (bWord off rs2 rs1 f3) = rs1 := by
  apply BitVec.eq_of_getLsbD_eq
  intro n hn
  simp only [rdField, bWord, BitVec.getLsbD_extractLsb', BitVec.getLsbD_append]
  interval_cases n <;> simp

@[simp] theorem rs2Field_bWord (off : Word) (rs2 rs1 : Reg) (f3 : BitVec 3) : rs2Field (bWord off rs2 rs1 f3) = rs2 := by
  apply BitVec.eq_of_getLsbD_eq
  intro n hn
  simp only [rs2Field, bWord, BitVec.getLsbD_extractLsb', BitVec.getLsbD_append]
  interval_cases n <;> simp

/-! ### sWord -/

@[simp] theorem opField_sWord (imm : Word) (rs2 rs1 : Reg) (f3 : BitVec 3) : opField (sWord imm rs2 rs1 f3) = 3#3 := by
  apply BitVec.eq_of_getLsbD_eq
  intro n hn
  simp only [opField, sWord, BitVec.getLsbD_extractLsb', BitVec.getLsbD_append]
  interval_cases n <;> simp

@[simp] theorem funct3_sWord (imm : Word) (rs2 rs1 : Reg) (f3 : BitVec 3) : funct3 (sWord imm rs2 rs1 f3) = f3 := by
  apply BitVec.eq_of_getLsbD_eq
  intro n hn
  simp only [funct3, sWord, BitVec.getLsbD_extractLsb', BitVec.getLsbD_append]
  interval_cases n <;> simp

@[simp] theorem rdField_sWord (imm : Word) (rs2 rs1 : Reg) (f3 : BitVec 3) : rdField (sWord imm rs2 rs1 f3) = rs1 := by
  apply BitVec.eq_of_getLsbD_eq
  intro n hn
  simp only [rdField, sWord, BitVec.getLsbD_extractLsb', BitVec.getLsbD_append]
  interval_cases n <;> simp

@[simp] theorem rs2Field_sWord (imm : Word) (rs2 rs1 : Reg) (f3 : BitVec 3) : rs2Field (sWord imm rs2 rs1 f3) = rs2 := by
  apply BitVec.eq_of_getLsbD_eq
  intro n hn
  simp only [rs2Field, sWord, BitVec.getLsbD_extractLsb', BitVec.getLsbD_append]
  interval_cases n <;> simp

/-! ### lWord -/

@[simp] theorem opField_lWord (imm : Word) (rs2 rd : Reg) (f3 : BitVec 3) : opField (lWord imm rs2 rd f3) = 4#3 := by
  apply BitVec.eq_of_getLsbD_eq
  intro n hn
  simp only [opField, lWord, BitVec.getLsbD_extractLsb', BitVec.getLsbD_append]
  interval_cases n <;> simp

@[simp] theorem funct3_lWord (imm : Word) (rs2 rd : Reg) (f3 : BitVec 3) : funct3 (lWord imm rs2 rd f3) = f3 := by
  apply BitVec.eq_of_getLsbD_eq
  intro n hn
  simp only [funct3, lWord, BitVec.getLsbD_extractLsb', BitVec.getLsbD_append]
  interval_cases n <;> simp

@[simp] theorem rdField_lWord (imm : Word) (rs2 rd : Reg) (f3 : BitVec 3) : rdField (lWord imm rs2 rd f3) = rd := by
  apply BitVec.eq_of_getLsbD_eq
  intro n hn
  simp only [rdField, lWord, BitVec.getLsbD_extractLsb', BitVec.getLsbD_append]
  interval_cases n <;> simp

@[simp] theorem rs2Field_lWord (imm : Word) (rs2 rd : Reg) (f3 : BitVec 3) : rs2Field (lWord imm rs2 rd f3) = rs2 := by
  apply BitVec.eq_of_getLsbD_eq
  intro n hn
  simp only [rs2Field, lWord, BitVec.getLsbD_extractLsb', BitVec.getLsbD_append]
  interval_cases n <;> simp

/-! ### jWord -/

@[simp] theorem opField_jWord (link : BitVec 1) (off : Word) (rd : Reg) : opField (jWord link off rd) = 5#3 := by
  apply BitVec.eq_of_getLsbD_eq
  intro n hn
  simp only [opField, jWord, BitVec.getLsbD_extractLsb', BitVec.getLsbD_append]
  interval_cases n <;> simp

@[simp] theorem rdField_jWord (link : BitVec 1) (off : Word) (rd : Reg) : rdField (jWord link off rd) = rd := by
  apply BitVec.eq_of_getLsbD_eq
  intro n hn
  simp only [rdField, jWord, BitVec.getLsbD_extractLsb', BitVec.getLsbD_append]
  interval_cases n <;> simp

/-! ### uWord -/

@[simp] theorem opField_uWord (flag : BitVec 1) (imm : Word) (rd : Reg) : opField (uWord flag imm rd) = 6#3 := by
  apply BitVec.eq_of_getLsbD_eq
  intro n hn
  simp only [opField, uWord, BitVec.getLsbD_extractLsb', BitVec.getLsbD_append]
  interval_cases n <;> simp

@[simp] theorem rdField_uWord (flag : BitVec 1) (imm : Word) (rd : Reg) : rdField (uWord flag imm rd) = rd := by
  apply BitVec.eq_of_getLsbD_eq
  intro n hn
  simp only [rdField, uWord, BitVec.getLsbD_extractLsb', BitVec.getLsbD_append]
  interval_cases n <;> simp

/-! ### sysWord -/

@[simp] theorem opField_sysWord (svc : BitVec 10) : opField (sysWord svc) = 7#3 := by
  apply BitVec.eq_of_getLsbD_eq
  intro n hn
  simp only [opField, sysWord, BitVec.getLsbD_extractLsb', BitVec.getLsbD_append]
  interval_cases n <;> simp

@[simp] theorem funct3_sysWord (svc : BitVec 10) : funct3 (sysWord svc) = 0#3 := by
  apply BitVec.eq_of_getLsbD_eq
  intro n hn
  simp only [funct3, sysWord, BitVec.getLsbD_extractLsb', BitVec.getLsbD_append]
  interval_cases n <;> simp

@[simp] theorem svcField_sysWord (svc : BitVec 10) : svcField (sysWord svc) = svc := by
  apply BitVec.eq_of_getLsbD_eq
  intro n hn
  simp only [svcField, sysWord, BitVec.getLsbD_extractLsb', BitVec.getLsbD_append]
  interval_cases n <;> simp

/-! ### Formats -/

@[simp] theorem formatOf_rWord (f4 : BitVec 4) (rs2 rd : Reg) (f3 : BitVec 3) : formatOf (rWord f4 rs2 rd f3) = .r := by
  rw [formatOf, opField_rWord]; rfl

@[simp] theorem formatOf_iWord (imm : Word) (rd : Reg) (f3 : BitVec 3) : formatOf (iWord imm rd f3) = .i := by
  rw [formatOf, opField_iWord]; rfl

@[simp] theorem formatOf_shiftWord (sel : BitVec 3) (shamt : BitVec 4) (rd : Reg) : formatOf (shiftWord sel shamt rd) = .i := by
  rw [formatOf, opField_shiftWord]; rfl

@[simp] theorem formatOf_bWord (off : Word) (rs2 rs1 : Reg) (f3 : BitVec 3) : formatOf (bWord off rs2 rs1 f3) = .b := by
  rw [formatOf, opField_bWord]; rfl

@[simp] theorem formatOf_sWord (imm : Word) (rs2 rs1 : Reg) (f3 : BitVec 3) : formatOf (sWord imm rs2 rs1 f3) = .s := by
  rw [formatOf, opField_sWord]; rfl

@[simp] theorem formatOf_lWord (imm : Word) (rs2 rd : Reg) (f3 : BitVec 3) : formatOf (lWord imm rs2 rd f3) = .l := by
  rw [formatOf, opField_lWord]; rfl

@[simp] theorem formatOf_jWord (link : BitVec 1) (off : Word) (rd : Reg) : formatOf (jWord link off rd) = .j := by
  rw [formatOf, opField_jWord]; rfl

@[simp] theorem formatOf_uWord (flag : BitVec 1) (imm : Word) (rd : Reg) : formatOf (uWord flag imm rd) = .u := by
  rw [formatOf, opField_uWord]; rfl

@[simp] theorem formatOf_sysWord (svc : BitVec 10) : formatOf (sysWord svc) = .sys := by
  rw [formatOf, opField_sysWord]; rfl

@[simp] theorem flagBit_jWord (link : BitVec 1) (off : Word) (rd : Reg) :
    flagBit (jWord link off rd) = link.getLsbD 0 := by
  simp only [flagBit, jWord, BitVec.getLsbD_append]
  simp

@[simp] theorem flagBit_uWord (flag : BitVec 1) (imm : Word) (rd : Reg) :
    flagBit (uWord flag imm rd) = flag.getLsbD 0 := by
  simp only [flagBit, uWord, BitVec.getLsbD_append]
  simp

/-! ### Immediates that fit their field come back whole (R71 to R76) -/

theorem extract_iWord (imm : Word) (rd : Reg) (f3 : BitVec 3) :
    (iWord imm rd f3).extractLsb' 9 7 = imm.extractLsb' 0 7 := by
  apply BitVec.eq_of_getLsbD_eq
  intro n hn
  simp only [iWord, BitVec.getLsbD_extractLsb', BitVec.getLsbD_append]
  interval_cases n <;> simp

theorem extract_bWord (off : Word) (rs2 rs1 : Reg) (f3 : BitVec 3) :
    (bWord off rs2 rs1 f3).extractLsb' 12 4 = off.extractLsb' 1 4 := by
  apply BitVec.eq_of_getLsbD_eq
  intro n hn
  simp only [bWord, BitVec.getLsbD_extractLsb', BitVec.getLsbD_append]
  interval_cases n <;> simp

theorem extract_sWord (imm : Word) (rs2 rs1 : Reg) (f3 : BitVec 3) :
    (sWord imm rs2 rs1 f3).extractLsb' 12 4 = imm.extractLsb' 0 4 := by
  apply BitVec.eq_of_getLsbD_eq
  intro n hn
  simp only [sWord, BitVec.getLsbD_extractLsb', BitVec.getLsbD_append]
  interval_cases n <;> simp

theorem extract_lWord (imm : Word) (rs2 rd : Reg) (f3 : BitVec 3) :
    (lWord imm rs2 rd f3).extractLsb' 12 4 = imm.extractLsb' 0 4 := by
  apply BitVec.eq_of_getLsbD_eq
  intro n hn
  simp only [lWord, BitVec.getLsbD_extractLsb', BitVec.getLsbD_append]
  interval_cases n <;> simp

theorem extract_jWord (link : BitVec 1) (off : Word) (rd : Reg) :
    (jWord link off rd).extractLsb' 9 6 ++ (jWord link off rd).extractLsb' 3 3 = off.extractLsb' 1 9 := by
  apply BitVec.eq_of_getLsbD_eq
  intro n hn
  simp only [jWord, BitVec.getLsbD_extractLsb', BitVec.getLsbD_append]
  interval_cases n <;> simp

theorem u9Field_uWord (flag : BitVec 1) (imm : Word) (rd : Reg) :
    u9Field (uWord flag imm rd) = imm.extractLsb' 7 9 := by
  apply BitVec.eq_of_getLsbD_eq
  intro n hn
  simp only [u9Field, uWord, BitVec.getLsbD_extractLsb', BitVec.getLsbD_append]
  interval_cases n <;> simp

/-- Sign extension from the low `n` bits gives back a word that is the sign extension of its low `n` bits. -/
theorem signExtend_low {n : Nat} (hn : n < 16) {v : Word} {f : BitVec (n + 1)} (hf : f.toNat = v.toNat % 2 ^ (n + 1))
    (hlo : -(2 ^ n : Int) ≤ v.toInt) (hhi : v.toInt < 2 ^ n) : f.signExtend 16 = v := by
  apply BitVec.eq_of_toInt_eq
  rw [BitVec.toInt_signExtend_of_le (by omega)]
  have h1 : f.toInt = v.toInt := by
    rw [BitVec.toInt_eq_toNat_bmod, hf]
    rw [BitVec.toInt_eq_toNat_bmod] at hlo hhi ⊢
    interval_cases n <;> norm_num [Int.bmod] at * <;> omega
  exact h1

theorem immI_iWord {imm : Word} (h : fitsI imm = true) (rd : Reg) (f3 : BitVec 3) : immI (iWord imm rd f3) = imm := by
  rw [immI, extract_iWord]
  simp only [fitsI, Bool.and_eq_true, decide_eq_true_eq] at h
  exact signExtend_low (n := 6) (by omega) (by simp [BitVec.extractLsb'_toNat]) (by omega) (by omega)

theorem immSL_sWord {imm : Word} (h : fitsSL imm = true) (rs2 rs1 : Reg) (f3 : BitVec 3) :
    immSL (sWord imm rs2 rs1 f3) = imm := by
  rw [immSL, extract_sWord]
  simp only [fitsSL, Bool.and_eq_true, decide_eq_true_eq] at h
  exact signExtend_low (n := 3) (by omega) (by simp [BitVec.extractLsb'_toNat]) (by omega) (by omega)

theorem immSL_lWord {imm : Word} (h : fitsSL imm = true) (rs2 rd : Reg) (f3 : BitVec 3) :
    immSL (lWord imm rs2 rd f3) = imm := by
  rw [immSL, extract_lWord]
  simp only [fitsSL, Bool.and_eq_true, decide_eq_true_eq] at h
  exact signExtend_low (n := 3) (by omega) (by simp [BitVec.extractLsb'_toNat]) (by omega) (by omega)

theorem toNat_append_zero {n : Nat} (x : BitVec n) : (x ++ 0#1).toNat = 2 * x.toNat := by
  rw [BitVec.toNat_append, Nat.shiftLeft_eq]
  simp
  omega

theorem toInt_emod_two (v : Word) (h : v.toInt % 2 = 0) : v.toNat % 2 = 0 := by
  rw [BitVec.toInt_eq_toNat_bmod, Int.bmod] at h
  omega

theorem immB_bWord {off : Word} (h : fitsB off = true) (rs2 rs1 : Reg) (f3 : BitVec 3) :
    immB (bWord off rs2 rs1 f3) = off := by
  rw [immB, extract_bWord]
  simp only [fitsB, Bool.and_eq_true, decide_eq_true_eq] at h
  have he := toInt_emod_two off h.2
  refine signExtend_low (n := 4) (by omega) ?_ (by omega) (by omega)
  rw [toNat_append_zero, BitVec.extractLsb'_toNat, Nat.shiftRight_eq_div_pow]
  omega

theorem immJ_jWord {off : Word} (h : fitsJ off = true) (link : BitVec 1) (rd : Reg) : immJ (jWord link off rd) = off := by
  rw [immJ, extract_jWord]
  simp only [fitsJ, Bool.and_eq_true, decide_eq_true_eq] at h
  have he := toInt_emod_two off h.2
  refine signExtend_low (n := 9) (by omega) ?_ (by omega) (by omega)
  rw [toNat_append_zero, BitVec.extractLsb'_toNat, Nat.shiftRight_eq_div_pow]
  omega

theorem immU_uWord {imm : Word} (h : fitsU imm = true) (flag : BitVec 1) (rd : Reg) : immU (uWord flag imm rd) = imm := by
  simp only [fitsU, decide_eq_true_eq] at h
  apply BitVec.eq_of_toNat_eq
  rw [immU, u9Field_uWord, BitVec.toNat_append, BitVec.extractLsb'_toNat, Nat.shiftLeft_eq, Nat.shiftRight_eq_div_pow]
  have := imm.isLt
  simp
  omega

end Sys2Proof
end

