-- ==== Sys2Proof/Laws/Decode.lean ====
section
/-!
SUPPORT. What a word that decodes can be, and what the number of each field is.
-/

namespace Sys2Proof

theorem orIllegal_ok {w : Word} {o : Option Instr} {i : Instr} (h : orIllegal w o = .ok i) : o = some i := by
  cases o with
  | none => cases h
  | some j => injection h with h; rw [h]

/-- The I-type row a word matches (R80): an operation on the immediate, or a shift. -/
theorem iRow_some {t : FunctTable} {w : Word} {i : Instr} (h : iRow t w = some i) :
    (∃ op, t.i.lookup (funct3 w) = some op ∧ i = IOp.instr (rdField w) (immI w) op) ∨
    (t.i.lookup (funct3 w) = none ∧
      ∃ op, t.shift.lookup (funct3 w, selField w) = some op ∧ i = ShiftOp.instr (rdField w) (shamtField w) op) := by
  unfold iRow at h
  split at h
  · next op hop => injection h with h; exact .inl ⟨op, hop, h.symm⟩
  · next hn =>
    obtain ⟨op, h1, h2⟩ := Option.map_eq_some_iff.1 h
    exact .inr ⟨hn, op, h1, h2.symm⟩

/-- All that a word that decodes can be: its format, the row found in the table, and the operands (R78). -/
theorem decode_ok_cases {t : FunctTable} {w : Word} {i : Instr} (h : decode t w = .ok i) :
    (formatOf w = .r ∧ ∃ op, t.r.lookup (funct4 w, funct3 w) = some op ∧
      i = ROp.instr (rdField w) (rs2Field w) op) ∨
    (formatOf w = .i ∧ ∃ op, t.i.lookup (funct3 w) = some op ∧ i = IOp.instr (rdField w) (immI w) op) ∨
    (formatOf w = .i ∧ ∃ op, t.shift.lookup (funct3 w, selField w) = some op ∧
      i = ShiftOp.instr (rdField w) (shamtField w) op) ∨
    (formatOf w = .b ∧ ∃ op, t.b.lookup (funct3 w) = some op ∧
      i = BOp.instr (rdField w) (rs2Field w) (immB w) op) ∨
    (formatOf w = .s ∧ ∃ op, t.s.lookup (funct3 w) = some op ∧
      i = SOp.instr (rdField w) (rs2Field w) (immSL w) op) ∨
    (formatOf w = .l ∧ ∃ op, t.l.lookup (funct3 w) = some op ∧
      i = LOp.instr (rdField w) (rs2Field w) (immSL w) op) ∨
    (formatOf w = .j ∧ ∃ op, t.j.lookup (flagBit w) = some op ∧ i = JOp.instr (rdField w) (immJ w) op) ∨
    (formatOf w = .u ∧ ∃ op, t.u.lookup (flagBit w) = some op ∧ i = UOp.instr (rdField w) (immU w) op) ∨
    (formatOf w = .sys ∧ funct3 w = 0#3 ∧ i = .ecall (svcField w)) := by
  unfold decode at h
  split at h
  case h_2 hf =>
    rcases iRow_some (orIllegal_ok h) with ⟨op, h1, h2⟩ | ⟨-, op, h1, h2⟩
    · exact .inr (.inl ⟨hf, op, h1, h2⟩)
    · exact .inr (.inr (.inl ⟨hf, op, h1, h2⟩))
  case h_8 hf =>
    split at h
    · next h3 => injection h with h; simp [hf, h.symm, show funct3 w = 0#3 from h3]
    · cases h
  all_goals
    next hf =>
      obtain ⟨op, h1, h2⟩ := Option.map_eq_some_iff.1 (orIllegal_ok h)
      simp [hf, h1, h2]

/-- The format of a decoded instruction is that of its word (R62). -/
theorem instrFormat_of_decode {t : FunctTable} {w : Word} {i : Instr} (h : decode t w = .ok i) :
    Machine.instrFormat i = formatOf w := by
  rcases decode_ok_cases h with ⟨hf, op, -, rfl⟩ | ⟨hf, op, -, rfl⟩ | ⟨hf, op, -, rfl⟩ | ⟨hf, op, -, rfl⟩ |
    ⟨hf, op, -, rfl⟩ | ⟨hf, op, -, rfl⟩ | ⟨hf, op, -, rfl⟩ | ⟨hf, op, -, rfl⟩ | ⟨hf, -, rfl⟩ <;> rw [hf] <;>
    first | rfl | (cases op <;> rfl)

/-- The integer of a bit vector as R10 writes it. -/
theorem toInt_eq_signedField {n : Nat} (hn : 0 < n) (f : BitVec n) : f.toInt = Machine.signedField n f.toNat := by
  rw [BitVec.toInt_eq_toNat_cond, Machine.signedField]
  have : 2 * f.toNat < 2 ^ n ↔ f.toNat < 2 ^ (n - 1) := by
    obtain ⟨m, rfl⟩ : ∃ m, n = m + 1 := ⟨n - 1, by omega⟩
    simp [pow_succ]; omega
  simp [this]

end Sys2Proof
end

