-- ==== Sys2Proof/Laws/Exec.lean ====
section
/-!
SUPPORT. What each instruction does, in terms of the shared operations: one equation per constructor, so that a proof
rewrites `exec` to an operation whose lemma it then cites. And what the operations do where the next PC is legal.
-/

namespace Sys2Proof.Machine

/-! ### One equation per instruction -/

theorem exec_add (rd rs2 : Reg) (s : State) :
    exec (.add rd rs2) s = complete s { wreg := some (rd, alu .add (s.reg rd) (s.reg rs2)) } := rfl

theorem exec_sub (rd rs2 : Reg) (s : State) :
    exec (.sub rd rs2) s = complete s { wreg := some (rd, alu .sub (s.reg rd) (s.reg rs2)) } := rfl

theorem exec_slt (rd rs2 : Reg) (s : State) :
    exec (.slt rd rs2) s = complete s { wreg := some (rd, alu .slt (s.reg rd) (s.reg rs2)) } := rfl

theorem exec_sltu (rd rs2 : Reg) (s : State) :
    exec (.sltu rd rs2) s = complete s { wreg := some (rd, alu .sltu (s.reg rd) (s.reg rs2)) } := rfl

theorem exec_sll (rd rs2 : Reg) (s : State) :
    exec (.sll rd rs2) s = complete s { wreg := some (rd, alu .sll (s.reg rd) (s.reg rs2)) } := rfl

theorem exec_srl (rd rs2 : Reg) (s : State) :
    exec (.srl rd rs2) s = complete s { wreg := some (rd, alu .srl (s.reg rd) (s.reg rs2)) } := rfl

theorem exec_sra (rd rs2 : Reg) (s : State) :
    exec (.sra rd rs2) s = complete s { wreg := some (rd, alu .sra (s.reg rd) (s.reg rs2)) } := rfl

theorem exec_or (rd rs2 : Reg) (s : State) :
    exec (.or rd rs2) s = complete s { wreg := some (rd, alu .or (s.reg rd) (s.reg rs2)) } := rfl

theorem exec_and (rd rs2 : Reg) (s : State) :
    exec (.and rd rs2) s = complete s { wreg := some (rd, alu .and (s.reg rd) (s.reg rs2)) } := rfl

theorem exec_xor (rd rs2 : Reg) (s : State) :
    exec (.xor rd rs2) s = complete s { wreg := some (rd, alu .xor (s.reg rd) (s.reg rs2)) } := rfl

theorem exec_mv (rd rs2 : Reg) (s : State) :
    exec (.mv rd rs2) s = complete s { wreg := some (rd, alu .passB (s.reg rd) (s.reg rs2)) } := rfl

theorem exec_jr (rd : Reg) (s : State) :
    exec (.jr rd) s = complete s { next := .abs (s.reg rd) } := rfl

theorem exec_jalr (rd rs2 : Reg) (s : State) :
    exec (.jalr rd rs2) s = complete s { wreg := some (rd, linkValue s), next := .abs (s.reg rs2) } := rfl

theorem exec_addi (rd : Reg) (imm : Word) (s : State) :
    exec (.addi rd imm) s = complete s { wreg := some (rd, alu .add (s.reg rd) imm) } := rfl

theorem exec_slti (rd : Reg) (imm : Word) (s : State) :
    exec (.slti rd imm) s = complete s { wreg := some (rd, alu .slt (s.reg rd) imm) } := rfl

theorem exec_sltiu (rd : Reg) (imm : Word) (s : State) :
    exec (.sltiu rd imm) s = complete s { wreg := some (rd, alu .sltu (s.reg rd) imm) } := rfl

theorem exec_ori (rd : Reg) (imm : Word) (s : State) :
    exec (.ori rd imm) s = complete s { wreg := some (rd, alu .or (s.reg rd) imm) } := rfl

theorem exec_andi (rd : Reg) (imm : Word) (s : State) :
    exec (.andi rd imm) s = complete s { wreg := some (rd, alu .and (s.reg rd) imm) } := rfl

theorem exec_xori (rd : Reg) (imm : Word) (s : State) :
    exec (.xori rd imm) s = complete s { wreg := some (rd, alu .xor (s.reg rd) imm) } := rfl

theorem exec_li (rd : Reg) (imm : Word) (s : State) :
    exec (.li rd imm) s = complete s { wreg := some (rd, alu .passB (s.reg rd) imm) } := rfl

theorem exec_slli (rd : Reg) (shamt : BitVec 4) (s : State) :
    exec (.slli rd shamt) s = complete s { wreg := some (rd, alu .sll (s.reg rd) (shamt.zeroExtend 16)) } := rfl

theorem exec_srli (rd : Reg) (shamt : BitVec 4) (s : State) :
    exec (.srli rd shamt) s = complete s { wreg := some (rd, alu .srl (s.reg rd) (shamt.zeroExtend 16)) } := rfl

theorem exec_srai (rd : Reg) (shamt : BitVec 4) (s : State) :
    exec (.srai rd shamt) s = complete s { wreg := some (rd, alu .sra (s.reg rd) (shamt.zeroExtend 16)) } := rfl

theorem exec_beq (rs1 rs2 : Reg) (off : Word) (s : State) :
    exec (.beq rs1 rs2 off) s = branch .eq (s.reg rs1) (s.reg rs2) off s := rfl

theorem exec_bne (rs1 rs2 : Reg) (off : Word) (s : State) :
    exec (.bne rs1 rs2 off) s = branch .ne (s.reg rs1) (s.reg rs2) off s := rfl

theorem exec_blt (rs1 rs2 : Reg) (off : Word) (s : State) :
    exec (.blt rs1 rs2 off) s = branch .lt (s.reg rs1) (s.reg rs2) off s := rfl

theorem exec_bge (rs1 rs2 : Reg) (off : Word) (s : State) :
    exec (.bge rs1 rs2 off) s = branch .ge (s.reg rs1) (s.reg rs2) off s := rfl

theorem exec_bltu (rs1 rs2 : Reg) (off : Word) (s : State) :
    exec (.bltu rs1 rs2 off) s = branch .ltu (s.reg rs1) (s.reg rs2) off s := rfl

theorem exec_bgeu (rs1 rs2 : Reg) (off : Word) (s : State) :
    exec (.bgeu rs1 rs2 off) s = branch .geu (s.reg rs1) (s.reg rs2) off s := rfl

theorem exec_bz (rs1 : Reg) (off : Word) (s : State) :
    exec (.bz rs1 off) s = branch .zero (s.reg rs1) 0 off s := rfl

theorem exec_bnz (rs1 : Reg) (off : Word) (s : State) :
    exec (.bnz rs1 off) s = branch .nonzero (s.reg rs1) 0 off s := rfl

theorem exec_sb (rs1 rs2 : Reg) (imm : Word) (s : State) :
    exec (.sb rs1 rs2 imm) s = storeAt .byte (effectiveAddress (s.reg rs1) imm)
      (fun a => .byte a ((s.reg rs2).extractLsb' 0 8)) s := rfl

theorem exec_sw (rs1 rs2 : Reg) (imm : Word) (s : State) :
    exec (.sw rs1 rs2 imm) s = storeAt .word (effectiveAddress (s.reg rs1) imm)
      (fun a => .word a (s.reg rs2)) s := rfl

theorem exec_lb (rd rs2 : Reg) (imm : Word) (s : State) :
    exec (.lb rd rs2 imm) s = loadInto rd .byte (effectiveAddress (s.reg rs2) imm)
      (fun m a => (m.read a).signExtend 16) s := rfl

theorem exec_lw (rd rs2 : Reg) (imm : Word) (s : State) :
    exec (.lw rd rs2 imm) s = loadInto rd .word (effectiveAddress (s.reg rs2) imm)
      (fun m a => m.readWord a) s := rfl

theorem exec_lbu (rd rs2 : Reg) (imm : Word) (s : State) :
    exec (.lbu rd rs2 imm) s = loadInto rd .byte (effectiveAddress (s.reg rs2) imm)
      (fun m a => (m.read a).zeroExtend 16) s := rfl

theorem exec_j (off : Word) (s : State) :
    exec (.j off) s = complete s { next := .rel off } := rfl

theorem exec_jal (rd : Reg) (off : Word) (s : State) :
    exec (.jal rd off) s = complete s { wreg := some (rd, linkValue s), next := .rel off } := rfl

theorem exec_lui (rd : Reg) (imm : Word) (s : State) :
    exec (.lui rd imm) s = complete s { wreg := some (rd, imm) } := rfl

theorem exec_auipc (rd : Reg) (imm : Word) (s : State) :
    exec (.auipc rd imm) s = complete s { wreg := some (rd, s.pc + imm) } := rfl

theorem exec_ecall (svc : BitVec 10) (s : State) :
    exec (.ecall svc) s = execEcall svc s := rfl

/-! ### A branch is one of two jumps (R107, R110) -/

theorem branch_taken {c : Cond} {a b off : Word} {s : State} (h : branchCond c a b = true) :
    branch c a b off s = complete s { next := .rel off } := by rw [branch, if_pos h]

theorem branch_notTaken {c : Cond} {a b off : Word} {s : State} (h : branchCond c a b = false) :
    branch c a b off s = complete s { next := .seq } := by rw [branch, h, if_neg (by simp)]

theorem branchCond_eq (a b : Word) : branchCond .eq a b = true ↔ a = b := by simp [branchCond]
theorem branchCond_ne (a b : Word) : branchCond .ne a b = true ↔ a ≠ b := by simp [branchCond]
theorem branchCond_zero (a b : Word) : branchCond .zero a b = true ↔ a = 0 := by simp [branchCond]
theorem branchCond_nonzero (a b : Word) : branchCond .nonzero a b = true ↔ a ≠ 0 := by simp [branchCond]
theorem branchCond_lt (a b : Word) : branchCond .lt a b = true ↔ a.toInt < b.toInt := by
  simp [branchCond, signedLess]
theorem branchCond_ge (a b : Word) : branchCond .ge a b = true ↔ b.toInt ≤ a.toInt := by
  simp [branchCond, signedLess]
theorem branchCond_ltu (a b : Word) : branchCond .ltu a b = true ↔ a.toNat < b.toNat := by
  simp [branchCond, unsignedLess]
theorem branchCond_geu (a b : Word) : branchCond .geu a b = true ↔ b.toNat ≤ a.toNat := by
  simp [branchCond, unsignedLess]

/-! ### Commits whose next PC is legal, and those whose next PC is not (R110, R111) -/

theorem inPcRange_seq (s : State) : inPcRange ((s.pc.toNat : Int) + 2) = true ↔ s.roomForNext := by
  rw [inPcRange_iff, State.roomForNext]; omega

theorem inPcRange_rel (s : State) (off : Word) :
    inPcRange ((s.pc.toNat : Int) + off.toInt) = true ↔ legalPc (s.relTarget off) := inPcRange_iff _

theorem complete_seq {s : State} {e : Effect} (hn : e.next = .seq) (h : s.roomForNext) :
    complete s e = .next (commit s e (s.pc + 2)) := by
  have hr : inPcRange (pcMux s.pc e.next) = true := by rw [hn]; exact (inPcRange_seq s).2 h
  rw [complete_of_inRange hr, hn, pcMux_seq, ofInt_seq]

theorem complete_rel {s : State} {e : Effect} {off : Word} (hn : e.next = .rel off) (h : legalPc (s.relTarget off)) :
    complete s e = .next (commit s e (BitVec.ofInt 16 (s.relTarget off))) := by
  have hr : inPcRange (pcMux s.pc e.next) = true := by rw [hn]; exact (inPcRange_rel s off).2 h
  rw [complete_of_inRange hr, hn]; rfl

theorem complete_abs {s : State} {e : Effect} {v : Word} (hn : e.next = .abs v) :
    complete s e = .next (commit s e v) := by
  have hr : inPcRange (pcMux s.pc e.next) = true := by rw [hn]; exact inPcRange_toNat v
  rw [complete_of_inRange hr, hn, pcMux_abs, ofInt_toNat_word]

theorem complete_stay {s : State} {e : Effect} (hn : e.next = .stay) :
    complete s e = .next (commit s e s.pc) := by
  have hr : inPcRange (pcMux s.pc e.next) = true := by rw [hn]; exact inPcRange_toNat s.pc
  rw [complete_of_inRange hr, hn, pcMux_stay, ofInt_toNat_word]

theorem raise_eq_faultedWith (s : State) (reason : FaultReason) (addr : Int) :
    raise s reason addr = s.faultedWith reason addr := rfl

theorem complete_seq_fault {s : State} {e : Effect} (hn : e.next = .seq) (h : ¬ s.roomForNext) :
    complete s e = .next (s.faultedWith .boundsError ((s.pc.toNat : Int) + 2)) := by
  have hr : inPcRange (pcMux s.pc e.next) = false := by
    rw [hn]; exact Bool.eq_false_iff.2 fun hh => h ((inPcRange_seq s).1 hh)
  rw [complete_of_outOfRange hr, hn]; rfl

theorem complete_rel_fault {s : State} {e : Effect} {off : Word} (hn : e.next = .rel off)
    (h : ¬ legalPc (s.relTarget off)) :
    complete s e = .next (s.faultedWith .boundsError (s.relTarget off)) := by
  have hr : inPcRange (pcMux s.pc e.next) = false := by
    rw [hn]; exact Bool.eq_false_iff.2 fun hh => h ((inPcRange_rel s off).1 hh)
  rw [complete_of_outOfRange hr, hn]; rfl

/-- A register write that goes on at `pc + 2` (R96, R110). -/
theorem complete_seqWrite {s : State} (rd : Reg) (v : Word) (h : s.roomForNext) :
    complete s { wreg := some (rd, v) } = .next (s.seqWrite rd v) := complete_seq rfl h

end Sys2Proof.Machine
end

