-- ==== Sys2Proof/Laws/PerInstr.lean ====
section
/-!
SUPPORT. The family TableRow: the word of every instruction has the fixed bits that spec/opcode_table.json gives its row
(`word & mask = match`), whatever its operands. The rows below are the table's `mask` and `match` columns.
-/

namespace Sys2Proof.Laws.TableRow

open Sys2Proof

/-- The (mask, match) pair of an instruction's row in opcode_table.json. -/
def row : Instr → Word × Word
  | .add _ _ => (0xF03F, 0x0000)
  | .sub _ _ => (0xF03F, 0x1000)
  | .slt _ _ => (0xF03F, 0x2008)
  | .sltu _ _ => (0xF03F, 0x3010)
  | .sll _ _ => (0xF03F, 0x4018)
  | .srl _ _ => (0xF03F, 0x5018)
  | .sra _ _ => (0xF03F, 0x6018)
  | .or _ _ => (0xF03F, 0x7020)
  | .and _ _ => (0xF03F, 0x8028)
  | .xor _ _ => (0xF03F, 0x9030)
  | .mv _ _ => (0xF03F, 0xA038)
  | .jr _ => (0xF03F, 0xB000)
  | .jalr _ _ => (0xF03F, 0xC000)
  | .addi _ _ => (0x003F, 0x0001)
  | .slti _ _ => (0x003F, 0x0009)
  | .sltiu _ _ => (0x003F, 0x0011)
  | .slli _ _ => (0xE03F, 0x2019)
  | .srli _ _ => (0xE03F, 0x4019)
  | .srai _ _ => (0xE03F, 0x8019)
  | .ori _ _ => (0x003F, 0x0021)
  | .andi _ _ => (0x003F, 0x0029)
  | .xori _ _ => (0x003F, 0x0031)
  | .li _ _ => (0x003F, 0x0039)
  | .beq _ _ _ => (0x003F, 0x0002)
  | .bne _ _ _ => (0x003F, 0x000A)
  | .bz _ _ => (0x003F, 0x0012)
  | .bnz _ _ => (0x003F, 0x001A)
  | .blt _ _ _ => (0x003F, 0x0022)
  | .bge _ _ _ => (0x003F, 0x002A)
  | .bltu _ _ _ => (0x003F, 0x0032)
  | .bgeu _ _ _ => (0x003F, 0x003A)
  | .sb _ _ _ => (0x003F, 0x0003)
  | .sw _ _ _ => (0x003F, 0x000B)
  | .lb _ _ _ => (0x003F, 0x0004)
  | .lw _ _ _ => (0x003F, 0x000C)
  | .lbu _ _ _ => (0x003F, 0x0024)
  | .j _ => (0x8007, 0x0005)
  | .jal _ _ => (0x8007, 0x8005)
  | .lui _ _ => (0x8007, 0x0006)
  | .auipc _ _ => (0x8007, 0x8006)
  | .ecall _ => (0x003F, 0x0007)

/-- The fixed bits of the row stand in the instruction's word. -/
def Statement (i : Instr) : Prop := encode i &&& (row i).1 = (row i).2

/-! ### Masking a format's word leaves its fixed fields -/

theorem rWord_and (f4 : BitVec 4) (rs2 rd : Reg) (f3 : BitVec 3) :
    rWord f4 rs2 rd f3 &&& 0xF03F = rWord f4 0 0 f3 := by
  apply BitVec.eq_of_getLsbD_eq
  intro n hn
  have hm : (0xF03F#16).getLsbD n = decide (n < 6 ∨ 12 ≤ n) := by revert n; decide
  simp only [BitVec.getLsbD_and, BitVec.ofNat_eq_ofNat, hm, rWord, BitVec.getLsbD_append]
  interval_cases n <;> simp

theorem iWord_and (imm : Word) (rd : Reg) (f3 : BitVec 3) : iWord imm rd f3 &&& 0x003F = iWord 0 0 f3 := by
  apply BitVec.eq_of_getLsbD_eq
  intro n hn
  have hm : (0x003F#16).getLsbD n = decide (n < 6) := by revert n; decide
  simp only [BitVec.getLsbD_and, BitVec.ofNat_eq_ofNat, hm, iWord, BitVec.getLsbD_append, BitVec.getLsbD_extractLsb']
  interval_cases n <;> simp

theorem shiftWord_and (sel : BitVec 3) (shamt : BitVec 4) (rd : Reg) :
    shiftWord sel shamt rd &&& 0xE03F = shiftWord sel 0 0 := by
  apply BitVec.eq_of_getLsbD_eq
  intro n hn
  have hm : (0xE03F#16).getLsbD n = decide (n < 6 ∨ 13 ≤ n) := by revert n; decide
  simp only [BitVec.getLsbD_and, BitVec.ofNat_eq_ofNat, hm, shiftWord, BitVec.getLsbD_append]
  interval_cases n <;> simp

theorem bWord_and (off : Word) (rs2 rs1 : Reg) (f3 : BitVec 3) :
    bWord off rs2 rs1 f3 &&& 0x003F = bWord 0 0 0 f3 := by
  apply BitVec.eq_of_getLsbD_eq
  intro n hn
  have hm : (0x003F#16).getLsbD n = decide (n < 6) := by revert n; decide
  simp only [BitVec.getLsbD_and, BitVec.ofNat_eq_ofNat, hm, bWord, BitVec.getLsbD_append, BitVec.getLsbD_extractLsb']
  interval_cases n <;> simp

theorem sWord_and (imm : Word) (rs2 rs1 : Reg) (f3 : BitVec 3) :
    sWord imm rs2 rs1 f3 &&& 0x003F = sWord 0 0 0 f3 := by
  apply BitVec.eq_of_getLsbD_eq
  intro n hn
  have hm : (0x003F#16).getLsbD n = decide (n < 6) := by revert n; decide
  simp only [BitVec.getLsbD_and, BitVec.ofNat_eq_ofNat, hm, sWord, BitVec.getLsbD_append, BitVec.getLsbD_extractLsb']
  interval_cases n <;> simp

theorem lWord_and (imm : Word) (rs2 rd : Reg) (f3 : BitVec 3) : lWord imm rs2 rd f3 &&& 0x003F = lWord 0 0 0 f3 := by
  apply BitVec.eq_of_getLsbD_eq
  intro n hn
  have hm : (0x003F#16).getLsbD n = decide (n < 6) := by revert n; decide
  simp only [BitVec.getLsbD_and, BitVec.ofNat_eq_ofNat, hm, lWord, BitVec.getLsbD_append, BitVec.getLsbD_extractLsb']
  interval_cases n <;> simp

theorem jWord_and (link : BitVec 1) (off : Word) (rd : Reg) : jWord link off rd &&& 0x8007 = jWord link 0 0 := by
  apply BitVec.eq_of_getLsbD_eq
  intro n hn
  have hm : (0x8007#16).getLsbD n = decide (n < 3 ∨ 15 ≤ n) := by revert n; decide
  simp only [BitVec.getLsbD_and, BitVec.ofNat_eq_ofNat, hm, jWord, BitVec.getLsbD_append, BitVec.getLsbD_extractLsb']
  interval_cases n <;> simp

theorem uWord_and (flag : BitVec 1) (imm : Word) (rd : Reg) : uWord flag imm rd &&& 0x8007 = uWord flag 0 0 := by
  apply BitVec.eq_of_getLsbD_eq
  intro n hn
  have hm : (0x8007#16).getLsbD n = decide (n < 3 ∨ 15 ≤ n) := by revert n; decide
  simp only [BitVec.getLsbD_and, BitVec.ofNat_eq_ofNat, hm, uWord, BitVec.getLsbD_append, BitVec.getLsbD_extractLsb']
  interval_cases n <;> simp

theorem sysWord_and (svc : BitVec 10) : sysWord svc &&& 0x003F = sysWord 0 := by
  apply BitVec.eq_of_getLsbD_eq
  intro n hn
  have hm : (0x003F#16).getLsbD n = decide (n < 6) := by revert n; decide
  simp only [BitVec.getLsbD_and, BitVec.ofNat_eq_ofNat, hm, sysWord, BitVec.getLsbD_append]
  interval_cases n <;> simp

/-! ### One lemma per instruction -/

theorem add (rd : Reg) (rs2 : Reg) : Statement (.add rd rs2) :=
  (rWord_and 0b0000 rs2 rd 0b000).trans rfl

theorem sub (rd : Reg) (rs2 : Reg) : Statement (.sub rd rs2) :=
  (rWord_and 0b0001 rs2 rd 0b000).trans rfl

theorem slt (rd : Reg) (rs2 : Reg) : Statement (.slt rd rs2) :=
  (rWord_and 0b0010 rs2 rd 0b001).trans rfl

theorem sltu (rd : Reg) (rs2 : Reg) : Statement (.sltu rd rs2) :=
  (rWord_and 0b0011 rs2 rd 0b010).trans rfl

theorem sll (rd : Reg) (rs2 : Reg) : Statement (.sll rd rs2) :=
  (rWord_and 0b0100 rs2 rd 0b011).trans rfl

theorem srl (rd : Reg) (rs2 : Reg) : Statement (.srl rd rs2) :=
  (rWord_and 0b0101 rs2 rd 0b011).trans rfl

theorem sra (rd : Reg) (rs2 : Reg) : Statement (.sra rd rs2) :=
  (rWord_and 0b0110 rs2 rd 0b011).trans rfl

theorem or (rd : Reg) (rs2 : Reg) : Statement (.or rd rs2) :=
  (rWord_and 0b0111 rs2 rd 0b100).trans rfl

theorem and (rd : Reg) (rs2 : Reg) : Statement (.and rd rs2) :=
  (rWord_and 0b1000 rs2 rd 0b101).trans rfl

theorem xor (rd : Reg) (rs2 : Reg) : Statement (.xor rd rs2) :=
  (rWord_and 0b1001 rs2 rd 0b110).trans rfl

theorem mv (rd : Reg) (rs2 : Reg) : Statement (.mv rd rs2) :=
  (rWord_and 0b1010 rs2 rd 0b111).trans rfl

theorem jr (rd : Reg) : Statement (.jr rd) :=
  (rWord_and 0b1011 0 rd 0b000).trans rfl

theorem jalr (rd : Reg) (rs2 : Reg) : Statement (.jalr rd rs2) :=
  (rWord_and 0b1100 rs2 rd 0b000).trans rfl

theorem addi (rd : Reg) (imm : Word) : Statement (.addi rd imm) :=
  (iWord_and imm rd 0b000).trans rfl

theorem slti (rd : Reg) (imm : Word) : Statement (.slti rd imm) :=
  (iWord_and imm rd 0b001).trans rfl

theorem sltiu (rd : Reg) (imm : Word) : Statement (.sltiu rd imm) :=
  (iWord_and imm rd 0b010).trans rfl

theorem slli (rd : Reg) (shamt : BitVec 4) : Statement (.slli rd shamt) :=
  (shiftWord_and 0b001 shamt rd).trans rfl

theorem srli (rd : Reg) (shamt : BitVec 4) : Statement (.srli rd shamt) :=
  (shiftWord_and 0b010 shamt rd).trans rfl

theorem srai (rd : Reg) (shamt : BitVec 4) : Statement (.srai rd shamt) :=
  (shiftWord_and 0b100 shamt rd).trans rfl

theorem ori (rd : Reg) (imm : Word) : Statement (.ori rd imm) :=
  (iWord_and imm rd 0b100).trans rfl

theorem andi (rd : Reg) (imm : Word) : Statement (.andi rd imm) :=
  (iWord_and imm rd 0b101).trans rfl

theorem xori (rd : Reg) (imm : Word) : Statement (.xori rd imm) :=
  (iWord_and imm rd 0b110).trans rfl

theorem li (rd : Reg) (imm : Word) : Statement (.li rd imm) :=
  (iWord_and imm rd 0b111).trans rfl

theorem beq (rs1 : Reg) (rs2 : Reg) (off : Word) : Statement (.beq rs1 rs2 off) :=
  (bWord_and off rs2 rs1 0b000).trans rfl

theorem bne (rs1 : Reg) (rs2 : Reg) (off : Word) : Statement (.bne rs1 rs2 off) :=
  (bWord_and off rs2 rs1 0b001).trans rfl

theorem bz (rs1 : Reg) (off : Word) : Statement (.bz rs1 off) :=
  (bWord_and off 0 rs1 0b010).trans rfl

theorem bnz (rs1 : Reg) (off : Word) : Statement (.bnz rs1 off) :=
  (bWord_and off 0 rs1 0b011).trans rfl

theorem blt (rs1 : Reg) (rs2 : Reg) (off : Word) : Statement (.blt rs1 rs2 off) :=
  (bWord_and off rs2 rs1 0b100).trans rfl

theorem bge (rs1 : Reg) (rs2 : Reg) (off : Word) : Statement (.bge rs1 rs2 off) :=
  (bWord_and off rs2 rs1 0b101).trans rfl

theorem bltu (rs1 : Reg) (rs2 : Reg) (off : Word) : Statement (.bltu rs1 rs2 off) :=
  (bWord_and off rs2 rs1 0b110).trans rfl

theorem bgeu (rs1 : Reg) (rs2 : Reg) (off : Word) : Statement (.bgeu rs1 rs2 off) :=
  (bWord_and off rs2 rs1 0b111).trans rfl

theorem sb (rs1 : Reg) (rs2 : Reg) (imm : Word) : Statement (.sb rs1 rs2 imm) :=
  (sWord_and imm rs2 rs1 0b000).trans rfl

theorem sw (rs1 : Reg) (rs2 : Reg) (imm : Word) : Statement (.sw rs1 rs2 imm) :=
  (sWord_and imm rs2 rs1 0b001).trans rfl

theorem lb (rd : Reg) (rs2 : Reg) (imm : Word) : Statement (.lb rd rs2 imm) :=
  (lWord_and imm rs2 rd 0b000).trans rfl

theorem lw (rd : Reg) (rs2 : Reg) (imm : Word) : Statement (.lw rd rs2 imm) :=
  (lWord_and imm rs2 rd 0b001).trans rfl

theorem lbu (rd : Reg) (rs2 : Reg) (imm : Word) : Statement (.lbu rd rs2 imm) :=
  (lWord_and imm rs2 rd 0b100).trans rfl

theorem j (off : Word) : Statement (.j off) :=
  (jWord_and 0 off 0).trans rfl

theorem jal (rd : Reg) (off : Word) : Statement (.jal rd off) :=
  (jWord_and 1 off rd).trans rfl

theorem lui (rd : Reg) (imm : Word) : Statement (.lui rd imm) :=
  (uWord_and 0 imm rd).trans rfl

theorem auipc (rd : Reg) (imm : Word) : Statement (.auipc rd imm) :=
  (uWord_and 1 imm rd).trans rfl

theorem ecall (svc : BitVec 10) : Statement (.ecall svc) :=
  (sysWord_and svc).trans rfl

end Sys2Proof.Laws.TableRow
end

