-- ==== Sys2Proof/Laws/Step.lean ====
section
/-!
SUPPORT. All that an instruction can do when it answers a next state, said once: it raises one of its three faults, or it
commits an effect that writes no more than the instruction may write.
-/

namespace Sys2Proof.Machine

/-- A failed access check names its fault (R48 to R50). -/
theorem checkAccess_error {width : Width} {ea : Int} {reason : FaultReason}
    (h : checkAccess width ea = .error reason) :
    (reason = .boundsError ∧ (ea < 0 ∨ 0xFFFF < ea)) ∨
    (reason = .alignmentError ∧ 0 ≤ ea ∧ ea ≤ 0xFFFF ∧ ea % 2 = 1) := by
  rcases checkAccess_cases width ea with hh | hh | hh
  · rw [hh.2] at h; injection h with h; exact .inl ⟨h.symm, hh.1⟩
  · rw [hh.2.2] at h; injection h with h; exact .inr ⟨h.symm, hh.1.1, hh.1.2, hh.2.1.2⟩
  · rw [hh.2.2] at h; cases h

/-- `complete`, with what a range fault records (R111). -/
theorem complete_next_cases {s t : State} {e : Effect} (h : complete s e = .next t) :
    (inPcRange (pcMux s.pc e.next) = true ∧ t = commit s e (BitVec.ofInt 16 (pcMux s.pc e.next))) ∨
    (∃ addr, t = raise s .boundsError addr ∧ (addr < 0 ∨ 0xFFFF < addr)) := by
  rcases complete_next.1 h with h' | ⟨h1, h2⟩
  · exact .inl h'
  · refine .inr ⟨_, h2, ?_⟩
    have : ¬ (0 ≤ pcMux s.pc e.next ∧ pcMux s.pc e.next ≤ 0xFFFF) := fun hh => by
      rw [(inPcRange_iff _).2 hh] at h1; cases h1
    omega

/-- Where a branch selects `Rel`, it is taken, by its own offset (R107, R110). -/
theorem branch_selects {p : Bool} {off off' : Word} {q : Prop} [Decidable q] (hp : p = true ↔ q)
    (h : (if p then NextPc.rel off else .seq) = .rel off') : (if q then some off else none) = some off' := by
  split at h
  · next hc => injection h with h; rw [if_pos (hp.1 hc), h]
  · cases h

theorem branch_never_abs {p : Bool} {off v : Word} (h : (if p then NextPc.rel off else .seq) = .abs v) : False := by
  split at h <;> cases h

/-- All that an instruction answering a next state can have done: a fault with its record (R183), nothing else changed;
or the commit of an effect whose register, store, service and next PC are the instruction's own (R19, R52, R110). -/
theorem exec_next_cases {i : Instr} {s t : State} (h : exec i s = .next t) :
    (∃ reason addr, t = raise s reason addr ∧
      ((reason = .boundsError ∧ (addr < 0 ∨ 0xFFFF < addr)) ∨
       (reason = .alignmentError ∧ 0 ≤ addr ∧ addr ≤ 0xFFFF ∧ addr % 2 = 1) ∨
       (reason = .unknownServiceError ∧ ∃ svc : BitVec 10, addr = svc.toNat ∧ serviceOf s.cfg svc = none))) ∨
    (∃ e : Effect, inPcRange (pcMux s.pc e.next) = true ∧
      t = commit s e (BitVec.ofInt 16 (pcMux s.pc e.next)) ∧
      (∀ r v, e.wreg = some (r, v) → r ∈ destRegs s.cfg i) ∧
      (∀ st, e.wmem = some st → ∃ (rs1 rs2 : Reg) (imm : Word) (a : Nat),
        (a : Int) = effectiveAddress (s.reg rs1) imm ∧
        ((i = .sb rs1 rs2 imm ∧ a < 65536 ∧ ∃ v, st = .byte a v) ∨
         (i = .sw rs1 rs2 imm ∧ a + 1 < 65536 ∧ ∃ v, st = .word a v))) ∧
      (e.halt = true ∨ e.request ≠ none ∨ e.takesReply = true → ∃ svc, i = .ecall svc ∧
        (e.halt = true → serviceOf s.cfg svc = some .exit) ∧
        (e.takesReply = true → serviceOf s.cfg svc = some .readChar)) ∧
      (∀ off, e.next = .rel off → relOffset s i = some off) ∧
      (∀ v, e.next = .abs v → (∃ rd, i = .jr rd) ∨ ∃ rd rs2, i = .jalr rd rs2)) := by
  cases i
  case ecall svc =>
    rw [exec_ecall] at h
    rcases execEcall_eq svc s with ⟨hs, he⟩ | ⟨hs, he⟩ | ⟨hs, he⟩ | ⟨hs, he⟩ | ⟨hs, he⟩ | ⟨hs, he⟩ <;> rw [he] at h
    · injection h with h
      exact .inl ⟨_, _, h.symm, .inr (.inr ⟨rfl, svc, rfl, hs⟩)⟩
    · rcases complete_next_cases h with ⟨h1, h2⟩ | ⟨a, h1, h2⟩
      · exact .inr ⟨_, h1, h2, by simp [hs]⟩
      · exact .inl ⟨_, a, h1, by simp [h2]⟩
    · rcases complete_next_cases h with ⟨h1, h2⟩ | ⟨a, h1, h2⟩
      · exact .inr ⟨_, h1, h2, by simp⟩
      · exact .inl ⟨_, a, h1, by simp [h2]⟩
    · rcases serviceReadChar_cases s with ⟨r, -, hr⟩ | ⟨-, -, hr⟩ | ⟨-, hr0, hr⟩ <;> rw [hr] at h
      · rcases complete_next_cases h with ⟨h1, h2⟩ | ⟨a, h1, h2⟩
        · exact .inr ⟨_, h1, h2, by simp [hs, destRegs]⟩
        · exact .inl ⟨_, a, h1, by simp [h2]⟩
      · cases h
      · injection h with h
        refine .inl ⟨_, _, h.symm, .inl ⟨rfl, ?_⟩⟩
        have : ¬ (0 ≤ (s.pc.toNat : Int) + 2 ∧ (s.pc.toNat : Int) + 2 ≤ 0xFFFF) := fun hh => by
          rw [(inPcRange_iff _).2 hh] at hr0; cases hr0
        omega
    · rcases servicePrintString_cases s with ⟨b, -, hr⟩ | ⟨-, hr⟩ <;> rw [hr] at h
      · rcases complete_next_cases h with ⟨h1, h2⟩ | ⟨a, h1, h2⟩
        · exact .inr ⟨_, h1, h2, by simp⟩
        · exact .inl ⟨_, a, h1, by simp [h2]⟩
      · injection h with h
        exact .inl ⟨_, _, h.symm, by simp⟩
    · rcases complete_next_cases h with ⟨h1, h2⟩ | ⟨a, h1, h2⟩
      · exact .inr ⟨_, h1, h2, by simp⟩
      · exact .inl ⟨_, a, h1, by simp [h2]⟩
  case sb rs1 rs2 imm | sw rs1 rs2 imm =>
    first | rw [exec_sb] at h | rw [exec_sw] at h
    rcases storeAt_next.1 h with ⟨a, ha, hc⟩ | ⟨reason, hr, ht⟩
    · obtain ⟨e1, e2, e3⟩ := checkAccess_ok ha
      rcases complete_next_cases hc with ⟨h1, h2⟩ | ⟨a, h1, h2⟩
      · refine .inr ⟨_, h1, h2, by simp, ?_, by simp⟩
        intro st hst
        injection hst with hst
        refine ⟨rs1, rs2, imm, a, e1.symm, ?_⟩
        first
        | exact .inl ⟨rfl, e2, _, hst.symm⟩
        | exact .inr ⟨rfl, (e3 rfl).2, _, hst.symm⟩
      · exact .inl ⟨_, a, h1, by simp [h2]⟩
    · exact .inl ⟨_, _, ht, (checkAccess_error hr).imp_right .inl⟩
  case lb rd rs2 imm | lw rd rs2 imm | lbu rd rs2 imm =>
    first | rw [exec_lb] at h | rw [exec_lw] at h | rw [exec_lbu] at h
    rcases loadInto_next.1 h with ⟨a, -, hc⟩ | ⟨reason, hr, ht⟩
    · rcases complete_next_cases hc with ⟨h1, h2⟩ | ⟨a, h1, h2⟩
      · exact .inr ⟨_, h1, h2, by simp [destRegs]⟩
      · exact .inl ⟨_, a, h1, by simp [h2]⟩
    · exact .inl ⟨_, _, ht, (checkAccess_error hr).imp_right .inl⟩
  case beq | bne | bz | bnz | blt | bge | bltu | bgeu =>
    simp only [exec_beq, exec_bne, exec_bz, exec_bnz, exec_blt, exec_bge, exec_bltu, exec_bgeu, branch] at h
    rcases complete_next_cases h with ⟨h1, h2⟩ | ⟨a, h1, h2⟩
    · refine .inr ⟨_, h1, h2, by simp, by simp, by simp, ?_, fun v hv => (branch_never_abs hv).elim⟩
      intro off ho
      first
      | exact branch_selects (branchCond_eq _ _) ho
      | exact branch_selects (branchCond_ne _ _) ho
      | exact branch_selects (branchCond_zero _ _) ho
      | exact branch_selects (branchCond_nonzero _ _) ho
      | exact branch_selects (branchCond_lt _ _) ho
      | exact branch_selects (branchCond_ge _ _) ho
      | exact branch_selects (branchCond_ltu _ _) ho
      | exact branch_selects (branchCond_geu _ _) ho
    · exact .inl ⟨_, a, h1, by simp [h2]⟩
  all_goals
    simp only [exec_add, exec_sub, exec_slt, exec_sltu, exec_sll, exec_srl, exec_sra, exec_or, exec_and, exec_xor,
      exec_mv, exec_jr, exec_jalr, exec_addi, exec_slti, exec_sltiu, exec_slli, exec_srli, exec_srai, exec_ori,
      exec_andi, exec_xori, exec_li, exec_j, exec_jal, exec_lui, exec_auipc] at h
    rcases complete_next_cases h with ⟨h1, h2⟩ | ⟨a, h1, h2⟩
    · exact .inr ⟨_, h1, h2, by simp [destRegs, relOffset]⟩
    · exact .inl ⟨_, a, h1, by simp [h2]⟩

end Sys2Proof.Machine
end

