-- ==== Sys2Proof/Tests/Slice0.lean ====
section
/-!
SUPPORT. The model's own tests. Expected results are those of spec 95_test_vectors.md (the section is named at each
group). And for every statement with hypotheses, a witness: a concrete state and operands that meet them together.
-/

namespace Sys2Proof.Tests

open Sys2Proof Sys2Proof.Machine

/-! ### Ill-formed terms are refused (30_encoding.md R71, R73 to R76), and the extremes are not -/

theorem test_wf_refuses_imm_i : (Instr.addi 1 64).wellFormed = false ∧ (Instr.li 1 (-65)).wellFormed = false := by decide
theorem test_wf_refuses_off_b : (Instr.beq 1 2 16).wellFormed = false ∧ (Instr.bz 1 3).wellFormed = false := by decide
theorem test_wf_refuses_imm_sl : (Instr.sw 1 2 8).wellFormed = false ∧ (Instr.lb 1 2 (-9)).wellFormed = false := by decide
theorem test_wf_refuses_off_j : (Instr.j 512).wellFormed = false ∧ (Instr.jal 1 1).wellFormed = false := by decide
theorem test_wf_refuses_imm_u : (Instr.lui 1 0x0040).wellFormed = false := by decide
theorem test_wf_admits_extremes :
    ((Instr.addi 1 (-64)).wellFormed && (Instr.li 1 63).wellFormed && (Instr.beq 1 2 (-16)).wellFormed &&
      (Instr.bnz 1 14).wellFormed && (Instr.sb 1 2 (-8)).wellFormed && (Instr.lw 1 2 7).wellFormed &&
      (Instr.j (-512)).wellFormed && (Instr.jal 1 510).wellFormed && (Instr.auipc 1 0xFF80).wellFormed) = true := by
  decide

/-! ### Every instruction's word, bit by bit from the encoding tables (95_test_vectors.md, sections 2 and 3) -/

theorem test_decode_add : decode defaultFunctTable 0b0000_010_001_000_000 = .ok (.add 1 2) := by decide
theorem test_decode_sub : decode defaultFunctTable 0b0001_010_001_000_000 = .ok (.sub 1 2) := by decide
theorem test_decode_slt : decode defaultFunctTable 0b0010_010_001_001_000 = .ok (.slt 1 2) := by decide
theorem test_decode_sltu : decode defaultFunctTable 0b0011_010_001_010_000 = .ok (.sltu 1 2) := by decide
theorem test_decode_sll : decode defaultFunctTable 0b0100_010_001_011_000 = .ok (.sll 1 2) := by decide
theorem test_decode_srl : decode defaultFunctTable 0b0101_010_001_011_000 = .ok (.srl 1 2) := by decide
theorem test_decode_sra : decode defaultFunctTable 0b0110_010_001_011_000 = .ok (.sra 1 2) := by decide
theorem test_decode_or : decode defaultFunctTable 0b0111_010_001_100_000 = .ok (.or 1 2) := by decide
theorem test_decode_and : decode defaultFunctTable 0b1000_010_001_101_000 = .ok (.and 1 2) := by decide
theorem test_decode_xor : decode defaultFunctTable 0b1001_010_001_110_000 = .ok (.xor 1 2) := by decide
theorem test_decode_mv : decode defaultFunctTable 0b1010_010_001_111_000 = .ok (.mv 1 2) := by decide
theorem test_decode_jr : decode defaultFunctTable 0b1011_011_001_000_000 = .ok (.jr 1) := by decide
theorem test_decode_jalr : decode defaultFunctTable 0b1100_010_001_000_000 = .ok (.jalr 1 2) := by decide
theorem test_decode_addi : decode defaultFunctTable 0b1111111_001_000_001 = .ok (.addi 1 (-1)) := by decide
theorem test_decode_slti : decode defaultFunctTable 0b1111111_001_001_001 = .ok (.slti 1 (-1)) := by decide
theorem test_decode_sltiu : decode defaultFunctTable 0b0000001_001_010_001 = .ok (.sltiu 1 1) := by decide
theorem test_decode_slli : decode defaultFunctTable 0b001_1111_001_011_001 = .ok (.slli 1 15) := by decide
theorem test_decode_srli : decode defaultFunctTable 0b010_0100_001_011_001 = .ok (.srli 1 4) := by decide
theorem test_decode_srai : decode defaultFunctTable 0b100_1111_001_011_001 = .ok (.srai 1 15) := by decide
theorem test_decode_ori : decode defaultFunctTable 0b1000000_001_100_001 = .ok (.ori 1 (-64)) := by decide
theorem test_decode_andi : decode defaultFunctTable 0b0111111_001_101_001 = .ok (.andi 1 63) := by decide
theorem test_decode_xori : decode defaultFunctTable 0b1111111_001_110_001 = .ok (.xori 1 (-1)) := by decide
theorem test_decode_li : decode defaultFunctTable 0b0000111_001_111_001 = .ok (.li 1 7) := by decide
theorem test_decode_beq : decode defaultFunctTable 0b1000_010_001_000_010 = .ok (.beq 1 2 (-16)) := by decide
theorem test_decode_bne : decode defaultFunctTable 0b1110_010_001_001_010 = .ok (.bne 1 2 (-4)) := by decide
theorem test_decode_bz : decode defaultFunctTable 0b0100_101_001_010_010 = .ok (.bz 1 8) := by decide
theorem test_decode_bnz : decode defaultFunctTable 0b1000_000_001_011_010 = .ok (.bnz 1 (-16)) := by decide
theorem test_decode_blt : decode defaultFunctTable 0b0011_010_001_100_010 = .ok (.blt 1 2 6) := by decide
theorem test_decode_bge : decode defaultFunctTable 0b0011_010_001_101_010 = .ok (.bge 1 2 6) := by decide
theorem test_decode_bltu : decode defaultFunctTable 0b0011_010_001_110_010 = .ok (.bltu 1 2 6) := by decide
theorem test_decode_bgeu : decode defaultFunctTable 0b0011_010_001_111_010 = .ok (.bgeu 1 2 6) := by decide
theorem test_decode_sb : decode defaultFunctTable 0b1111_010_001_000_011 = .ok (.sb 1 2 (-1)) := by decide
theorem test_decode_sw : decode defaultFunctTable 0b0001_010_001_001_011 = .ok (.sw 1 2 1) := by decide
theorem test_decode_lb : decode defaultFunctTable 0b1111_010_001_000_100 = .ok (.lb 1 2 (-1)) := by decide
theorem test_decode_lw : decode defaultFunctTable 0b1000_010_001_001_100 = .ok (.lw 1 2 (-8)) := by decide
theorem test_decode_lbu : decode defaultFunctTable 0b0111_010_001_100_100 = .ok (.lbu 1 2 7) := by decide
theorem test_decode_j : decode defaultFunctTable 0b0_100000_000_000_101 = .ok (.j (-512)) := by decide
theorem test_decode_jal : decode defaultFunctTable 0b1_100000_001_111_101 = .ok (.jal 1 (-498)) := by decide
theorem test_decode_lui : decode defaultFunctTable 0b0_111111_001_111_110 = .ok (.lui 1 0xFF80) := by decide
theorem test_decode_auipc : decode defaultFunctTable 0b1_000000_101_001_110 = .ok (.auipc 5 0x0080) := by decide
theorem test_decode_ecall : decode defaultFunctTable 0b0000000101_000_111 = .ok (.ecall 5) := by decide

/-- R87: one word of each kind of illegal word. -/
theorem test_decode_rejects :
    [0xD000, 0x0008, 0x0259, 0xE259, 0x0453, 0x0454, 0x000F, 0xFFFF].all
      (fun w => decide (decode defaultFunctTable w = .error (.illegal w))) = true := by decide

/-- The table of D1's three source-fixed rows (`ecall` is in every table): every other word is DecodeError, the words of
the J and U formats and the shifts among them. -/
def sourceFixedTable : FunctTable :=
  { r := [((0b1000, 0b101), .and)], i := [(0b111, .li)], shift := [], b := [], s := [], l := [], j := [], u := [] }

theorem test_source_fixed_table :
    decode sourceFixedTable 0x8468 = .ok (.and 1 2) ∧ decode sourceFixedTable 0x0E79 = .ok (.li 1 7) ∧
    decode sourceFixedTable 0xFFC7 = .ok (.ecall 1023) ∧
    [0x0440, 0x8041, 0x8859, 0x8442, 0x8443, 0x844C, 0x4005, 0x803D, 0x7E7E, 0xFE7E].all
      (fun w => decide (decode sourceFixedTable w = .error (.illegal w))) = true := by decide

/-- A table may give the shifts another funct3, and then funct3 3 to an operation on the immediate. -/
theorem test_shift_code_is_a_parameter :
    let t := { defaultFunctTable with
      i := [(0b011, .addi)], shift := [((0b000, 0b001), .slli), ((0b101, 0b111), .srai)] }
    decode t 0x3E41 = .ok (.slli 1 15) ∧ decode t 0xFE69 = .ok (.srai 1 15) ∧ decode t 0xFE59 = .ok (.addi 1 (-1)) ∧
      decode t 0x5E41 = .error (.illegal 0x5E41) := by decide

/-- The host's question, for the source's first worked word and for an illegal word. -/
theorem test_decodeTableWord :
    decodeTableWord 16 0x0E79 = some (.li 1 7) ∧ decodeTableWord 16 0xD000 = none := by decide

/-! ### One step (95_test_vectors.md, section 3): `x1`, the pc and the status after it -/

/-- The state with `x1`, `x2`, pc and memory given, everything else as at reset. -/
def machine (pc x1 x2 : Word) (mem : Memory) : State :=
  { State.reset with regs := setReg (setReg State.reset.regs 1 x1) 2 x2, pc := pc, mem := mem }

/-- The illustrative service map of section 3.8. -/
def testServices : List (BitVec 10 × Service) := [(1, .printChar), (2, .readChar), (3, .printString), (4, .printInt)]

/-- The state with the illustrative services, `x6` and the pc given, and the reply 0x0042 fixed in advance. -/
def serving (pc x6 : Word) (mem : Memory) : State :=
  { State.reset with
    regs := setReg State.reset.regs 6 x6, pc := pc, mem := mem, replies := [0x0042]
    cfg := { defaultConfig with services := testServices } }

/-- The state after a step that answers one. -/
def after : Result → Option State
  | .next t => some t
  | .fault _ | .refused _ => none

def view (r : Result) : Option (Word × Word × Status) := (after r).map fun t => (t.reg 1, t.pc, t.status)

/-- One step of the word `w` at 0x0100. -/
def stepAt (w : Nat) (x1 x2 : Word) (mem : Memory) : Result := step ((machine 0x0100 x1 x2 mem).withFetchWord 16 w)

theorem test_add_wraps : view (stepAt 0x0440 0xFFFF 0x0001 []) = some (0x0000, 0x0102, .running) := by decide
theorem test_sub_wraps : view (stepAt 0x1440 0x0000 0x0001 []) = some (0xFFFF, 0x0102, .running) := by decide
theorem test_slt_signed : view (stepAt 0x2448 0xFFFF 0x0000 []) = some (0x0001, 0x0102, .running) := by decide
theorem test_sltu_unsigned : view (stepAt 0x3450 0xFFFF 0x0000 []) = some (0x0000, 0x0102, .running) := by decide
theorem test_sll_by_15 : view (stepAt 0x4458 0x0001 0x000F []) = some (0x8000, 0x0102, .running) := by decide
theorem test_sll_by_16_is_by_0 : view (stepAt 0x4458 0x0001 0x0010 []) = some (0x0001, 0x0102, .running) := by decide
theorem test_srl_low_four_bits : view (stepAt 0x5458 0x8000 0xFFF3 []) = some (0x1000, 0x0102, .running) := by decide
theorem test_sra_keeps_sign : view (stepAt 0x6458 0x8000 0x000F []) = some (0xFFFF, 0x0102, .running) := by decide
theorem test_or : view (stepAt 0x7460 0xF0F0 0x0FF0 []) = some (0xFFF0, 0x0102, .running) := by decide
theorem test_and : view (stepAt 0x8468 0xF0F0 0x0FF0 []) = some (0x00F0, 0x0102, .running) := by decide
theorem test_xor_same_register : view (stepAt 0x9270 0xF0F0 0x0000 []) = some (0x0000, 0x0102, .running) := by decide
theorem test_mv : view (stepAt 0xA478 0x1111 0xBEEF []) = some (0xBEEF, 0x0102, .running) := by decide
theorem test_addi_overflow : view (stepAt 0x7E41 0x7FFF 0x0000 []) = some (0x803E, 0x0102, .running) := by decide
theorem test_slti_signed : view (stepAt 0xFE49 0xFFFE 0x0000 []) = some (0x0001, 0x0102, .running) := by decide
theorem test_sltiu_of_minus_one : view (stepAt 0xFE51 0x1234 0x0000 []) = some (0x0001, 0x0102, .running) := by decide
theorem test_slli_by_15 : view (stepAt 0x3E59 0x0003 0x0000 []) = some (0x8000, 0x0102, .running) := by decide
theorem test_srli : view (stepAt 0x4859 0x8000 0x0000 []) = some (0x0800, 0x0102, .running) := by decide
theorem test_srai : view (stepAt 0x8859 0x8000 0x0000 []) = some (0xF800, 0x0102, .running) := by decide
theorem test_ori : view (stepAt 0x8061 0x0001 0x0000 []) = some (0xFFC1, 0x0102, .running) := by decide
theorem test_andi : view (stepAt 0x7E69 0xFFFF 0x0000 []) = some (0x003F, 0x0102, .running) := by decide
theorem test_xori : view (stepAt 0xFE71 0x1234 0x0000 []) = some (0xEDCB, 0x0102, .running) := by decide
theorem test_li_lowest : view (stepAt 0x8079 0x1234 0x0000 []) = some (0xFFC0, 0x0102, .running) := by decide
theorem test_lui_highest : view (stepAt 0x7E7E 0x0000 0x0000 []) = some (0xFF80, 0x0102, .running) := by decide
theorem test_auipc_wraps : view (stepAt 0xFE7E 0x0000 0x0000 []) = some (0x0080, 0x0102, .running) := by decide
theorem test_jr_odd_is_written : view (stepAt 0xB040 0x0201 0x0000 []) = some (0x0201, 0x0201, .running) := by decide
theorem test_jalr_links : view (stepAt 0xC440 0x0000 0x0300 []) = some (0x0102, 0x0300, .running) := by decide
theorem test_beq_taken_back : view (stepAt 0x8442 0x0005 0x0005 []) = some (0x0005, 0x00F0, .running) := by decide
theorem test_beq_untaken : view (stepAt 0x8442 0x0005 0x0006 []) = some (0x0005, 0x0102, .running) := by decide
theorem test_bne_untaken : view (stepAt 0xE44A 0x0005 0x0005 []) = some (0x0005, 0x0102, .running) := by decide
theorem test_bz_taken : view (stepAt 0x4A52 0x0000 0x0000 []) = some (0x0000, 0x0108, .running) := by decide
theorem test_bnz_untaken : view (stepAt 0x805A 0x0000 0x0000 []) = some (0x0000, 0x0102, .running) := by decide
theorem test_blt_signed : view (stepAt 0x3462 0x8000 0x7FFF []) = some (0x8000, 0x0106, .running) := by decide
theorem test_bge_equal : view (stepAt 0x346A 0x0007 0x0007 []) = some (0x0007, 0x0106, .running) := by decide
theorem test_bltu_unsigned : view (stepAt 0x3472 0x8000 0x7FFF []) = some (0x8000, 0x0102, .running) := by decide
theorem test_bgeu_unsigned : view (stepAt 0x347A 0x0001 0xFFFF []) = some (0x0001, 0x0102, .running) := by decide
theorem test_j_highest : view (stepAt 0x3E3D 0x0000 0x0000 []) = some (0x0000, 0x02FE, .running) := by decide
theorem test_jal_back : view (stepAt 0xFE7D 0x1234 0x0000 []) = some (0x0102, 0x00FE, .running) := by decide
theorem test_lb_sign_extends : view (stepAt 0x0444 0x0000 0x1000 [(0x1000, 0x81)]) = some (0xFF81, 0x0102, .running) := by decide
theorem test_lbu_zero_extends : view (stepAt 0x0464 0x0000 0x1000 [(0x1000, 0x81)]) = some (0x0081, 0x0102, .running) := by decide
theorem test_lw_little_endian : view (stepAt 0x044C 0x0000 0x1000 [(0x1000, 0x01), (0x1001, 0x80)]) = some (0x8001, 0x0102, .running) := by decide
theorem test_lw_misaligned_at_the_top :
    view (stepAt 0x044C 0x5555 0xFFFF []) = some (0x5555, 0x0100, .faulted ⟨.alignmentError, 0x0100, 0xFFFF⟩) := by decide
theorem test_sb_below_zero :
    view (stepAt 0xF443 0x0000 0x1234 []) = some (0x0000, 0x0100, .faulted ⟨.boundsError, 0x0100, -1⟩) := by decide
theorem test_sb_last_byte :
    (after (exec (.sb 1 2 0) (machine 0x0100 0xFFFF 0x1234 []))).map (·.mem) = some [(0xFFFF, 0x34)] := by decide
theorem test_sw_low_byte_first :
    (after (exec (.sw 1 2 0) (machine 0x0100 0x1000 0x8001 []))).map (·.mem) = some [(0x1000, 0x01), (0x1001, 0x80)] := by
  decide
theorem test_sw_misaligned_keeps_memory :
    (after (exec (.sw 1 2 0) (machine 0x0100 0x1001 0xBEEF [(0x1000, 0x11), (0x1001, 0x22)]))).map
      (fun t => (t.mem, t.status)) =
      some ([(0x1000, 0x11), (0x1001, 0x22)], .faulted ⟨.alignmentError, 0x0100, 0x1001⟩) := by decide
theorem test_jal_out_of_range_writes_no_link :
    view (exec (.jal 1 2) (machine 0xFFFE 0x1234 0 [])) =
      some (0x1234, 0xFFFE, .faulted ⟨.boundsError, 0xFFFE, 0x10000⟩) := by decide
theorem test_illegal_word_faults :
    view (stepAt 0xD000 0 0 []) = some (0, 0x0100, .faulted ⟨.decodeError, 0x0100, 0xD000⟩) := by decide
theorem test_ecall_exit : view (stepAt 0xFFC7 0 0 []) = some (0, 0x0100, .halted) := by decide
theorem test_ecall_unknown :
    view (stepAt 0x0147 0 0 []) = some (0, 0x0100, .faulted ⟨.unknownServiceError, 0x0100, 5⟩) := by decide

/-- Section 3.8, rows 4 to 10: what each service hands over, and where the pc goes. -/
theorem test_services :
    (after (exec (.ecall 1) (serving 0x0100 0x1241 []))).map (fun t => (t.requests, t.pc)) =
      some ([.printChar 65], 0x0102) ∧
    (after (exec (.ecall 2) (serving 0x0100 0x1241 []))).map (fun t => (t.requests, t.reg 6)) =
      some ([.readChar], 0x0042) ∧
    (after (exec (.ecall 3) (serving 0x0100 0x0200 [(0x0200, 0x48), (0x0201, 0x69)]))).map (·.requests) =
      some [.printString [0x48, 0x69]] ∧
    (after (exec (.ecall 3) (serving 0x0100 0xFFFF [(0xFFFF, 0x41)]))).map (·.status) =
      some (.faulted ⟨.boundsError, 0x0100, 0x10000⟩) ∧
    (after (exec (.ecall 4) (serving 0x0100 0xFFFF []))).map (·.requests) = some [.printInt (-1)] ∧
    (after (exec (.ecall 1) (serving 0xFFFE 0x0041 []))).map (·.requests) = some [] := by decide

/-- Section 3.10, row 1: the alignment of the pc is checked before EXEC_FORBIDDEN. -/
theorem test_odd_pc_comes_first :
    view (step { machine 0x0101 0 0 [] with cfg := { defaultConfig with execForbidden := [0x0101] } }) =
      some (0, 0x0101, .faulted ⟨.alignmentError, 0x0101, 0x0101⟩) := by decide

/-- 10_state.md R35, R203: `rst` wins over `step_en`, and without either nothing moves. -/
theorem test_clockEdge :
    after (clockEdge true true (machine 0x0100 1 2 [(0, 1)])) = some State.reset ∧
    after (clockEdge false false (machine 0x0100 1 2 [(0, 1)])) = some (machine 0x0100 1 2 [(0, 1)]) ∧
    (after (clockEdge false true ((machine 0x0100 1 2 []).withFetchWord 16 0x0440))).map (·.reg 1) = some 3 := by decide

/-- R205: loading the image of W7 places its bytes from 0 up. -/
theorem test_load :
    ((machine 0x0100 1 2 [(7, 9)]).load [0x79, 0x0E, 0x68]).mem = [(0, 0x79), (1, 0x0E), (2, 0x68), (7, 9)] := by decide

/-! ### Witnesses: for each statement with hypotheses, a state and operands that meet them together -/

theorem exists_next {r : Result} {p : State → Bool} (h : (after r).any p = true) : ∃ t, r = .next t ∧ p t = true := by
  cases r with
  | next t => exact ⟨t, rfl, h⟩
  | fault _ => cases h
  | refused _ => cases h

/-- A machine about to run the word `w` at 0x0100. -/
def ready (w : Nat) (x1 x2 : Word) (mem : Memory) : State := (machine 0x0100 x1 x2 mem).withFetchWord 16 w

/-- A machine whose `EXEC_FORBIDDEN` holds its own pc. -/
def forbidden (pc : Word) : State := { machine pc 0 0 [] with cfg := { defaultConfig with execForbidden := [pc] } }

/-! #### Encoding -/

theorem witness_DecodeOfEncodeIsIdentity :
    (Instr.jal 7 510).wellFormed = true ∧ (Instr.beq 0 7 (-16)).wellFormed = true ∧
    (Instr.auipc 7 0xFF80).wellFormed = true ∧ (Instr.ecall 1023).wellFormed = true := by decide
theorem witness_DecodedInstructionIsWellFormed :
    decode defaultFunctTable 0x8041 = .ok (.addi 1 (-64)) ∧
    decode { defaultFunctTable with j := [(false, .jal)] } 0x4005 = .ok (.jal 0 (-512)) := by decide
theorem witness_EncodeOfDecodeKeepsUsedBits :
    decode defaultFunctTable 0xB640 = .ok (.jr 1) ∧ encode (.jr 1) = 0xB040 := by decide
theorem witness_IllegalWordsAreExactlyTheListed :
    decode defaultFunctTable 0xD000 = .error (.illegal 0xD000) ∧ decode defaultFunctTable 0x0259 = .error (.illegal 0x0259) ∧
    decode defaultFunctTable 0x0453 = .error (.illegal 0x0453) ∧ decode defaultFunctTable 0x0454 = .error (.illegal 0x0454) ∧
    decode defaultFunctTable 0x000F = .error (.illegal 0x000F) ∧ decode defaultFunctTable 0xC000 ≠ .error (.illegal 0xC000) := by
  decide
theorem witness_LowThreeBitsSelectTheFormat :
    decode defaultFunctTable 0xFFC7 = .ok (.ecall 1023) ∧ decode defaultFunctTable 0x0000 = .ok (.add 0 0) := by decide
/-- Each format at the two ends of its immediate. -/
theorem witness_ImmediatesOfEachFormat :
    [((0x8041, .addi 1 (-64)), (-64, .i)), ((0x7E41, .addi 1 63), (63, .i)),
      ((0x8442, .beq 1 2 (-16)), (-16, .b)), ((0x7442, .beq 1 2 14), (14, .b)),
      ((0x8443, .sb 1 2 (-8)), (-8, .s)), ((0x7443, .sb 1 2 7), (7, .s)),
      ((0x844C, .lw 1 2 (-8)), (-8, .l)), ((0x7464, .lbu 1 2 7), (7, .l)),
      ((0x4005, .j (-512)), (-512, .j)), ((0x3E3D, .j 510), (510, .j)),
      ((0x7E7E, .lui 1 0xFF80), (0xFF80, .u)), ((0x0046, .lui 1 0), (0, .u))].all
      (fun (c : (Word × Instr) × (Word × Format)) =>
        decide (decode defaultFunctTable c.1.1 = .ok c.1.2) && decide (immOperand c.1.2 = some c.2.1) &&
          decide (instrFormat c.1.2 = c.2.2)) = true := by decide
theorem witness_ShiftAmountAndServiceFields :
    decode defaultFunctTable 0x3E59 = .ok (.slli 1 15) ∧ decode defaultFunctTable 0x4059 = .ok (.srli 1 0) ∧
    decode defaultFunctTable 0x9E59 = .ok (.srai 1 15) ∧ decode defaultFunctTable 0xFFC7 = .ok (.ecall 1023) ∧
    decode defaultFunctTable 0x0007 = .ok (.ecall 0) := by decide
theorem witness_DontCareFieldsAreIgnored :
    (decode defaultFunctTable 0x0155 = .ok (.j 4) ∧
      (0x0015 : Word) &&& ~~~ dontCare (.j 4) = (0x0155 : Word) &&& ~~~ dontCare (.j 4)) ∧
    (decode defaultFunctTable 0x4A52 = .ok (.bz 1 8) ∧
      (0x4E52 : Word) &&& ~~~ dontCare (.bz 1 8) = (0x4A52 : Word) &&& ~~~ dontCare (.bz 1 8)) := by decide

/-! #### The step -/

theorem witness_StepRunsTheDecodedInstruction :
    let s := ready 0x0440 1 2 []
    s.status = .running ∧ s.pc.toNat % 2 = 0 ∧ s.pc ∉ s.cfg.execForbidden ∧
      decode s.cfg.functs
        (BitVec.ofNat 16 ((s.mem.read s.pc.toNat).toNat + 256 * (s.mem.read (s.pc.toNat + 1)).toNat)) = .ok (.add 1 2) := by
  decide
theorem witness_StoppedMachineStaysPut :
    ({ machine 0 0 0 [] with status := .halted }).status ≠ .running ∧
    ({ machine 0 0 0 [] with status := .faulted ⟨.decodeError, 0, 0⟩ }).status ≠ .running := by decide
theorem witness_OddPcFaults :
    (machine 0xFFFF 0 0 []).status = .running ∧ (machine 0xFFFF 0 0 []).pc.toNat % 2 = 1 := by decide
theorem witness_OddPcComesFromRegisterJumps :
    ∃ t, step (ready 0xC440 0 0x0201 []) = .next t ∧
      (decide ((ready 0xC440 0 0x0201 []).pc.toNat % 2 = 0) && decide (t.pc.toNat % 2 = 1)) = true :=
  exists_next (by decide)
theorem witness_ForbiddenFetchFaults :
    let s := forbidden 0xFFFE
    s.status = .running ∧ s.pc.toNat % 2 = 0 ∧ s.pc ∈ s.cfg.execForbidden := by decide
theorem witness_IllegalWordRaisesDecodeError :
    let s := ready 0xFFFF 0 0 []
    s.status = .running ∧ s.pc.toNat % 2 = 0 ∧ s.pc ∉ s.cfg.execForbidden ∧
      ∀ i, decode s.cfg.functs (fetchWord s) ≠ .ok i := by
  have h : decode (ready 0xFFFF 0 0 []).cfg.functs (fetchWord (ready 0xFFFF 0 0 [])) = .error (.illegal 0xFFFF) := by decide
  exact ⟨by decide, by decide, by decide, fun i hi => by rw [h] at hi; cases hi⟩
theorem witness_FaultingStepCommitsNothing :
    ∃ t, step (ready 0x144C 0x5555 0x1000 []) = .next t ∧
      (decide ((ready 0x144C 0x5555 0x1000 []).status = .running) &&
        decide (t.status = .faulted ⟨.alignmentError, 0x0100, 0x1001⟩)) = true := exists_next (by decide)
/-- A state that a run can reach and one, with a fault recorded, in which the machine stays. -/
theorem witness_StepKeepsInvariant :
    (ready 0x044B 0x1000 0x8001 []).Inv ∧ (after (step (ready 0x044B 0x1000 0x8001 []))).isSome = true ∧
    ({ machine 0x0101 0 0 [] with status := .faulted ⟨.alignmentError, 0x0101, 0x0101⟩ }).Inv := by
  refine ⟨⟨by decide, fun f h => by cases h⟩, by decide, by decide, ?_⟩
  intro f h
  injection h with h
  subst h
  exact ⟨rfl, by decide, by decide, by decide⟩
theorem witness_StepHandsOverAtMostOneRequest :
    (∃ t, step ((serving 0x0100 0x1241 []).withFetchWord 16 0x0047) = .next t ∧
      decide (t.requests = [.printChar 65]) = true) ∧
    ∃ t, step ((serving 0xFFFE 0x1241 []).withFetchWord 16 0x0047) = .next t ∧
      (decide (t.requests = []) && decide (t.status = .faulted ⟨.boundsError, 0xFFFE, 0x10000⟩)) = true :=
  ⟨exists_next (by decide), exists_next (by decide)⟩
theorem witness_OnlyUnansweredReadCharStops :
    (after (step (ready 0x0440 1 2 []))).isSome = true ∧
    fetchDecode ((serving 0x0100 0 []).withFetchWord 16 0x0087) = .run (.ecall 2) ∧
    (serving 0x0100 0 []).cfg.services.lookup 2 = some .readChar := by decide
theorem witness_RegistersWrittenAreTheListedOnes :
    (∃ t, exec (.ecall 2) (serving 0x0100 0x1241 []) = .next t ∧
      decide (destRegs (serving 0x0100 0x1241 []).cfg (.ecall 2) = [6]) = true) ∧
    ∃ t, exec (.sw 1 2 0) (machine 0x0100 0x1000 1 []) = .next t ∧
      decide (destRegs (machine 0x0100 0x1000 1 []).cfg (.sw 1 2 0) = []) = true :=
  ⟨exists_next (by decide), exists_next (by decide)⟩
theorem witness_MemoryChangesOnlyByStores :
    (∃ t, step (ready 0xF443 0x1001 0xABCD []) = .next t ∧ decide (t.mem ≠ (ready 0xF443 0x1001 0xABCD []).mem) = true) ∧
    ∃ t, step (ready 0x044B 0xFFFE 0xBEEF []) = .next t ∧ decide (t.mem ≠ (ready 0x044B 0xFFFE 0xBEEF []).mem) = true :=
  ⟨exists_next (by decide), exists_next (by decide)⟩
theorem witness_StoreIsSeenByTheNextFetch :
    ∃ t, exec (.sw 1 2 2) (machine 0x0100 0x0100 0x8468 []) = .next t ∧
      (decide (t.status = .running) &&
        decide (effectiveAddress ((machine 0x0100 0x0100 0x8468 []).reg 1) 2 = t.pc.toNat)) = true :=
  exists_next (by decide)

/-! #### Instructions -/

/-- The last pc with room for the next instruction, and the first without. -/
theorem witness_roomForNext :
    (machine 0xFFFC 1 2 []).roomForNext ∧ (machine 0 1 2 []).roomForNext ∧ ¬ (machine 0xFFFE 1 2 []).roomForNext := by decide

theorem witness_AddSubtractCompareComplete : (machine 0xFFFC 0xFFFF 0x0001 []).roomForNext := by decide
theorem witness_RegisterShiftsComplete : (machine 0xFFFC 0x8000 0x000F []).roomForNext := by decide
theorem witness_LogicAndMoveComplete : (machine 0xFFFC 0xF0F0 0x0FF0 []).roomForNext := by decide
theorem witness_ImmediateAddAndCompareComplete : (machine 0xFFFC 0x7FFF 0 []).roomForNext := by decide
theorem witness_ImmediateShiftsComplete : (machine 0xFFFC 0x8000 0 []).roomForNext := by decide
theorem witness_ImmediateLogicAndLiComplete : (machine 0xFFFC 0x1234 0 []).roomForNext := by decide
theorem witness_UpperImmediatesComplete : (machine 0xFFFC 0x1234 0 []).roomForNext := by decide

/-- Taken to each end of the address space; and not taken. -/
theorem witness_EqualityBranchesComplete :
    (let s := machine 0x0010 5 5 []; s.reg 1 = s.reg 2 ∧ legalPc (s.relTarget (-16))) ∧
    (let s := machine 0xFFF0 5 6 []; ¬ (s.reg 1 = s.reg 2) ∧ s.roomForNext) ∧
    (let s := machine 0xFFF0 5 6 []; s.reg 1 ≠ s.reg 2 ∧ legalPc (s.relTarget 14)) ∧
    (let s := machine 0x0010 5 5 []; ¬ (s.reg 1 ≠ s.reg 2) ∧ s.roomForNext) ∧
    (let s := machine 0x0010 0 5 []; (s.reg 1).toNat = 0 ∧ legalPc (s.relTarget (-16))) ∧
    (let s := machine 0x0010 0x8000 5 []; ¬ ((s.reg 1).toNat = 0) ∧ s.roomForNext) ∧
    (let s := machine 0xFFF0 0x8000 5 []; (s.reg 1).toNat ≠ 0 ∧ legalPc (s.relTarget 14)) ∧
    (let s := machine 0xFFFC 0 5 []; ¬ ((s.reg 1).toNat ≠ 0) ∧ s.roomForNext) := by decide
theorem witness_OrderBranchesComplete :
    (let s := machine 0x0010 0x8000 0x7FFF []; (s.reg 1).toInt < (s.reg 2).toInt ∧ legalPc (s.relTarget (-16))) ∧
    (let s := machine 0xFFFC 7 7 []; ¬ ((s.reg 1).toInt < (s.reg 2).toInt) ∧ s.roomForNext) ∧
    (let s := machine 0xFFF0 7 7 []; (s.reg 1).toInt ≥ (s.reg 2).toInt ∧ legalPc (s.relTarget 14)) ∧
    (let s := machine 0x0010 0x8000 0x7FFF []; ¬ ((s.reg 1).toInt ≥ (s.reg 2).toInt) ∧ s.roomForNext) ∧
    (let s := machine 0x0010 0 1 []; (s.reg 1).toNat < (s.reg 2).toNat ∧ legalPc (s.relTarget (-16))) ∧
    (let s := machine 0xFFFC 0x8000 0x7FFF []; ¬ ((s.reg 1).toNat < (s.reg 2).toNat) ∧ s.roomForNext) ∧
    (let s := machine 0xFFF0 0xFFFF 0xFFFF []; (s.reg 1).toNat ≥ (s.reg 2).toNat ∧ legalPc (s.relTarget 14)) ∧
    (let s := machine 0x0010 0 1 []; ¬ ((s.reg 1).toNat ≥ (s.reg 2).toNat) ∧ s.roomForNext) := by decide
/-- A jump to each end of the address space. -/
theorem witness_JumpsComplete :
    legalPc ((machine 0x0200 0 0 []).relTarget (-512)) ∧ legalPc ((machine 0xFFFE 0 0 []).relTarget 0) := by decide
theorem witness_NextPcOutOfRangeFaults :
    (fallsThroughOnly (.add 1 2) = true ∧ ¬ (machine 0xFFFE 1 2 []).roomForNext) ∧
    ((isBranch (.bne 1 2 (-4)) = true ∧ relOffset (machine 0xFFFE 5 5 []) (.bne 1 2 (-4)) = none) ∧
      ¬ (machine 0xFFFE 5 5 []).roomForNext) ∧
    (relOffset (machine 0x0004 5 5 []) (.beq 1 2 (-16)) = some (-16) ∧
      ¬ legalPc ((machine 0x0004 5 5 []).relTarget (-16))) ∧
    (relOffset (machine 0xFFFE 0 0 []) (.jal 1 2) = some 2 ∧ ¬ legalPc ((machine 0xFFFE 0 0 []).relTarget 2)) := by decide

/-- The last byte of memory and the last word of it. -/
theorem witness_StoresComplete :
    (((machine 0xFFFC 0xFFFF 1 []).reg 1).toNat + (0 : Word).toInt = (0xFFFF : Nat) ∧
      (machine 0xFFFC 0xFFFF 1 []).roomForNext) ∧
    (((machine 0xFFFC 0xFFFF 1 []).reg 1).toNat + (-1 : Word).toInt = (0xFFFE : Nat) ∧ 0xFFFE ≤ 0xFFFF ∧ 0xFFFE % 2 = 0) ∧
    ((machine 0 8 1 []).reg 1).toNat + (-8 : Word).toInt = (0 : Nat) := by decide
theorem witness_ByteLoadsComplete :
    ((machine 0xFFFC 0 0xFFF8 []).reg 2).toNat + (7 : Word).toInt = (0xFFFF : Nat) ∧
    ((machine 0xFFFC 0 8 []).reg 2).toNat + (-8 : Word).toInt = (0 : Nat) ∧ (machine 0xFFFC 0 8 []).roomForNext := by decide
theorem witness_WordLoadCompletes :
    ((machine 0xFFFC 0 0xFFF8 []).reg 2).toNat + (6 : Word).toInt = (0xFFFE : Nat) ∧ 0xFFFE % 2 = 0 ∧
    ((machine 0xFFFC 0 8 []).reg 2).toNat + (-8 : Word).toInt = (0 : Nat) ∧ (machine 0xFFFC 0 8 []).roomForNext := by decide
/-- Just below the address space, and just above it. -/
theorem witness_OutOfBoundsAccessFaults :
    (((machine 0 0 0 []).reg 1).toNat + (-1 : Word).toInt = (-1 : Int) ∧ (-1 : Int) < 0) ∧
    (((machine 0 0xFFFF 0 []).reg 1).toNat + (1 : Word).toInt = (65536 : Int) ∧ (65535 : Int) < 65536) := by decide
theorem witness_MisalignedWordAccessFaults :
    ((machine 0 0xFFFF 0 []).reg 1).toNat + (0 : Word).toInt = (0xFFFF : Nat) ∧
    ((machine 0 0 0 []).reg 1).toNat + (1 : Word).toInt = (1 : Nat) := by decide
theorem witness_LoadStoreAtTheTopFaults :
    ((machine 0xFFFE 0xFFFE 1 []).reg 1).toNat + (0 : Word).toInt = (0xFFFE : Nat) ∧
    ((machine 0xFFFE 0xFFFE 1 []).reg 1).toNat + (1 : Word).toInt = (0xFFFF : Nat) ∧
    ¬ (machine 0xFFFE 0xFFFE 1 []).roomForNext ∧
    Instr.sb 1 2 1 ∈ [Instr.lb 2 1 1, .lbu 2 1 1, .sb 1 2 1] ∧
    Instr.lw 2 1 0 ∈ [Instr.lw 2 1 0, .sw 1 2 0] := by decide
theorem witness_StoreThenLoadRoundTrips :
    ((machine 0xFFFA 0x1000 0x8001 []).reg 1).toNat + (0 : Word).toInt = (0x1000 : Nat) ∧
    (machine 0xFFFA 0x1000 0x8001 []).pc.toNat + 4 ≤ 0xFFFF := by decide

/-! #### Services -/

theorem witness_UnknownServiceFaults :
    (0x3FE : BitVec 10) ≠ 0x3FF ∧ (serving 0 0 []).cfg.services.lookup 0x3FE = none ∧
    (0 : BitVec 10) ≠ 0x3FF ∧ (machine 0 0 0 []).cfg.services.lookup 0 = none := by decide
theorem witness_PrintCharSendsTheLowByte :
    (1 : BitVec 10) ≠ 0x3FF ∧ (serving 0xFFFC 0x1241 []).cfg.services.lookup 1 = some .printChar ∧
    (serving 0xFFFC 0x1241 []).roomForNext := by decide
theorem witness_PrintIntSendsTheSignedValue :
    (4 : BitVec 10) ≠ 0x3FF ∧ (serving 0xFFFC 0x8000 []).cfg.services.lookup 4 = some .printInt ∧
    (serving 0xFFFC 0x8000 []).roomForNext := by decide
/-- The first clause; of the free value of the other two nothing is known, and either may hold of it. -/
theorem witness_ReadCharTakesTheHostsReply :
    (2 : BitVec 10) ≠ 0x3FF ∧ (serving 0xFFFC 0 []).cfg.services.lookup 2 = some .readChar ∧
    (serving 0xFFFC 0 []).roomForNext ∧ (serving 0xFFFC 0 []).replies = [0x0042] := by decide
theorem witness_ReadCharTakesTheHostsReply_free :
    let s := { serving 0xFFFC 0 [] with replies := [] }
    s.cfg.services.lookup 2 = some .readChar ∧ s.roomForNext ∧ s.replies = [] ∧
      ((∃ r, Config.hostReply s.draws = some r) ∨ Config.hostReply s.draws = none) :=
  ⟨by decide, by decide, by decide, by
    cases h : Config.hostReply 0 with
    | none => exact .inr h
    | some r => exact .inl ⟨r, h⟩⟩
/-- A string that ends at the last byte of memory, an empty one, and one without an end. -/
theorem witness_PrintStringSendsTheBytesBeforeTheZero :
    (3 : BitVec 10) ≠ 0x3FF ∧ (serving 0xFFFC 0xFFFE []).cfg.services.lookup 3 = some .printString ∧
    (serving 0xFFFC 0xFFFE []).roomForNext ∧ ((serving 0xFFFC 0xFFFE []).reg 6).toNat = 0xFFFE ∧
    (0xFFFE + 1 ≤ 0xFFFF ∧ Memory.read [(0xFFFE, 0x41)] (0xFFFE + 1) = 0 ∧
      ∀ k, k < 1 → Memory.read [(0xFFFE, 0x41)] (0xFFFE + k) ≠ 0) ∧
    (0xFFFE + 0 ≤ 0xFFFF ∧ Memory.read [] (0xFFFE + 0) = 0 ∧ ∀ k, k < 0 → Memory.read [] (0xFFFE + k) ≠ 0) := by decide
theorem witness_PrintStringAtTheTop :
    ¬ (serving 0xFFFE 0x0200 []).roomForNext ∧ ((serving 0xFFFE 0x0200 []).reg 6).toNat = 0x0200 ∧
    (serving 0xFFFE 0x0200 []).cfg.services.lookup 3 = some .printString ∧
    (serving 0xFFFE 0x0200 []).mem.read (0x0200 + 0) = 0 := by decide
theorem witness_PrintStringWithoutAZero :
    ∀ x, 0xFFFE ≤ x → x ≤ 0xFFFF → Memory.read [(0xFFFE, 0x41), (0xFFFF, 0x42)] x ≠ 0 := by
  intro x h1 h2
  have h : x = 0xFFFE ∨ x = 0xFFFF := by omega
  rcases h with rfl | rfl <;> decide
theorem witness_ServiceAtTheTopSendsNothing :
    ¬ (serving 0xFFFE 0 []).roomForNext ∧ (serving 0xFFFE 0 []).cfg.services.lookup 1 = some .printChar ∧
    (serving 0xFFFE 0 []).cfg.services.lookup 2 = some .readChar ∧
    (serving 0xFFFE 0 []).cfg.services.lookup 4 = some .printInt := by decide

/-! #### Frames -/

theorem witness_RegisterOnlyInstructionsFrame :
    (writesRegisterOnly (.jal 1 (-4)) = true ∧ (after (exec (.jal 1 (-4)) (machine 0x0100 0 0 []))).isSome = true) ∧
    (writesRegisterOnly (.srai 1 4) = true ∧ (after (exec (.srai 1 4) (machine 0xFFFE 0 0 []))).isSome = true) := by decide
theorem witness_RedirectingInstructionsFrame :
    redirectsOnly (.jr 1) = true ∧ (after (exec (.jr 1) (machine 0x0100 0x0201 0 []))).isSome = true ∧
    redirectsOnly (.bgeu 1 2 6) = true ∧ (after (exec (.bgeu 1 2 6) (machine 0x0100 1 2 []))).isSome = true := by decide
theorem witness_StoresFrame :
    (effectiveAddress ((machine 0x0100 0xFFFF 1 []).reg 1) 0 = (0xFFFF : Nat) ∧
      (after (exec (.sb 1 2 0) (machine 0x0100 0xFFFF 1 []))).isSome = true) ∧
    (effectiveAddress ((machine 0x0100 0xFFFF 1 []).reg 1) (-1) = (0xFFFE : Nat) ∧
      (after (exec (.sw 1 2 (-1)) (machine 0x0100 0xFFFF 1 []))).isSome = true) := by decide
theorem witness_LoadsFrame :
    Instr.lw 1 2 0 ∈ [Instr.lb 1 2 0, .lw 1 2 0, .lbu 1 2 0] ∧
    (after (exec (.lw 1 2 0) (machine 0x0100 0 0xFFFE [(0xFFFF, 1)]))).isSome = true := by decide
theorem witness_EcallFrame :
    ((after (exec (.ecall 1) (serving 0x0100 0 []))).isSome = true ∧ serviceOf (serving 0x0100 0 []).cfg 1 ≠ some .readChar ∧
      serviceOf (serving 0x0100 0 []).cfg 1 ≠ some .exit) ∧
    (after (exec (.ecall 2) (serving 0x0100 0 []))).isSome = true ∧
    (after (exec (.ecall 0x3FF) (serving 0x0100 0 []))).isSome = true := by decide

/-! #### The disassembler, reset and load -/

theorem witness_DisassembledTargetIsTheNextPc :
    (fetchDecode (ready 0x8442 5 5 []) = .run (.beq 1 2 (-16)) ∧
      relOffset (ready 0x8442 5 5 []) (.beq 1 2 (-16)) = some (-16)) ∧
    ∃ t, step (ready 0x8442 5 5 []) = .next t ∧ decide (t.status = .running) = true :=
  ⟨by decide, exists_next (by decide)⟩
theorem witness_DisassembledIllegalWord : ∀ i, decode defaultFunctTable 0xD000 ≠ .ok i := by
  have h : decode defaultFunctTable 0xD000 = .error (.illegal 0xD000) := by decide
  intro i hi
  rw [h] at hi
  cases hi
theorem witness_ResetZeroesTheMachine :
    ∃ s : State, (machine 0x0100 1 2 [(0, 1)]).doReset = s.doReset ∧ (machine 0x0100 1 2 [(0, 1)]).doReset = State.reset :=
  ⟨machine 0x0100 1 2 [(0, 1)], rfl, by decide⟩
theorem witness_LoadPlacesTheImage :
    ([0x79, 0x0E] : List Byte)[1]? = some 0x0E ∧ ([0x79, 0x0E] : List Byte).length ≤ 2 := by decide

end Sys2Proof.Tests
end

section
/-!
The reset value of every register, memory byte and the pc (10_state.md section 8, R21, R27, R32).
-/

namespace Sys2Proof.Machine

/-- A register file of eight zero words reads 0 at every register (R21). -/
theorem State.reg_of_regs_eq_zero {t : State} (h : t.regs = Vector.replicate 8 0) (r : Reg) : t.reg r = 0 := by
  simp only [State.reg, h, Vector.getElem_replicate]

/-- A memory that lists no byte reads 0 at every address (R32). -/
@[simp] theorem Memory.read_nil (a : Nat) : Memory.read [] a = 0 := rfl

/-- Settles O59: a new machine and a machine after `reset()` have the same zero registers, empty memory and pc 0. -/
theorem resetZeroesTheMachine : Obligations.ResetZeroesTheMachine := by
  refine ⟨?_, load_pc⟩
  intro t ht
  have hfields : t.regs = Vector.replicate 8 0 ∧ t.mem = [] ∧ t.pc = 0 := by
    obtain rfl | ⟨s, rfl⟩ := ht
    · exact ⟨rfl, rfl, rfl⟩
    · exact ⟨doReset_regs s, doReset_mem s, doReset_pc s⟩
  obtain ⟨hregs, hmem, hpc⟩ := hfields
  exact ⟨State.reg_of_regs_eq_zero hregs, fun a => by rw [hmem, Memory.read_nil], hpc⟩

end Sys2Proof.Machine
end

section
/-!
The byte order of memory (20_memory.md section 2, R44 to R46): what each byte reads as, as a number, after a word write.
-/

namespace Sys2Proof.Machine

theorem Word.toNat_lowByte (v : Word) : (v.extractLsb' 0 8).toNat = v.toNat % 256 := by
  simp only [BitVec.extractLsb'_toNat, Nat.shiftRight_zero, Nat.reducePow]

theorem Word.toNat_highByte (v : Word) : (v.extractLsb' 8 8).toNat = v.toNat / 256 := by
  rw [BitVec.extractLsb'_toNat, Nat.shiftRight_eq_div_pow]
  exact Nat.mod_eq_of_lt (Nat.div_lt_of_lt_mul v.isLt)

/-- `MemWrite(a, 2, v)` as R46 writes it, in numbers: the low byte at `a`, the high byte at `a + 1`, no other byte. -/
theorem Memory.toNat_read_writeWord (m : Memory) (a x : Nat) (v : Word) :
    ((m.writeWord a v).read x).toNat =
      if x = a then v.toNat % 256 else if x = a + 1 then v.toNat / 256 else (m.read x).toNat := by
  rw [Memory.read_writeWord, apply_ite BitVec.toNat, apply_ite BitVec.toNat, Word.toNat_lowByte, Word.toNat_highByte]

/-- Settles O23: the byte write, the word write and the word read each by its own lemma. -/
theorem memoryIsLittleEndian : Obligations.MemoryIsLittleEndian :=
  ⟨Memory.read_write, Memory.toNat_read_writeWord, Memory.toNat_readWord⟩

end Sys2Proof.Machine
end

section
/-!
The operands of a decoded instruction as integers read off its word (30_encoding.md section 4, R71 to R77).
-/

namespace Sys2Proof.Machine

/-! ### A bit field of a word, as a number -/

theorem toNat_extractLsb'_eq_div_mod (w : Word) (start len : Nat) :
    (w.extractLsb' start len).toNat = w.toNat / 2 ^ start % 2 ^ len := by
  rw [BitVec.extractLsb'_toNat, Nat.shiftRight_eq_div_pow]

/-- A field that reaches up to bit 15 needs no upper cut. -/
theorem toNat_extractLsb'_top (w : Word) {start len : Nat} (h : start + len = 16) :
    (w.extractLsb' start len).toNat = w.toNat / 2 ^ start := by
  rw [toNat_extractLsb'_eq_div_mod]
  refine Nat.mod_eq_of_lt (Nat.div_lt_of_lt_mul ?_)
  rw [← pow_add, h]
  exact w.isLt

theorem toNat_selField (w : Word) : (selField w).toNat = w.toNat / 8192 := toNat_extractLsb'_top w rfl

theorem toNat_svcField (w : Word) : (svcField w).toNat = w.toNat / 64 := toNat_extractLsb'_top w rfl

theorem toNat_shamtField (w : Word) : (shamtField w).toNat = w.toNat / 512 % 16 :=
  toNat_extractLsb'_eq_div_mod w 9 4

theorem toNat_u9Field (w : Word) : (u9Field w).toNat = w.toNat / 512 % 64 * 8 + w.toNat / 8 % 8 := by
  rw [u9Field, BitVec.toNat_append, toNat_extractLsb'_eq_div_mod, toNat_extractLsb'_eq_div_mod,
    ← Nat.shiftLeft_add_eq_or_of_lt (Nat.mod_lt _ (by decide)), Nat.shiftLeft_eq]
  rfl

/-! ### The sign-extension unit, as integers (R71 to R76) -/

/-- A sign-extended field is the integer its number denotes under R10. -/
theorem toInt_signExtend_eq_signedField {n : Nat} (hpos : 0 < n) (hle : n ≤ 16) (f : BitVec n) :
    (f.signExtend 16).toInt = signedField n f.toNat := by
  rw [BitVec.toInt_signExtend_of_le hle, toInt_eq_signedField hpos]

theorem toInt_immI (w : Word) : (immI w).toInt = signedField 7 (w.toNat / 512) := by
  rw [immI, toInt_signExtend_eq_signedField (by decide) (by decide), toNat_extractLsb'_top w rfl]
  rfl

theorem toInt_immB (w : Word) : (immB w).toInt = signedField 5 (2 * (w.toNat / 4096)) := by
  rw [immB, toInt_signExtend_eq_signedField (by decide) (by decide), toNat_append_zero, toNat_extractLsb'_top w rfl]
  rfl

theorem toInt_immSL (w : Word) : (immSL w).toInt = signedField 4 (w.toNat / 4096) := by
  rw [immSL, toInt_signExtend_eq_signedField (by decide) (by decide), toNat_extractLsb'_top w rfl]
  rfl

theorem immJ_eq_signExtend_u9Field (w : Word) : immJ w = (u9Field w ++ 0#1).signExtend 16 := rfl

theorem toInt_immJ (w : Word) :
    (immJ w).toInt = signedField 10 (w.toNat / 512 % 64 * 16 + w.toNat / 8 % 8 * 2) := by
  rw [immJ_eq_signExtend_u9Field, toInt_signExtend_eq_signedField (by decide) (by decide), toNat_append_zero,
    toNat_u9Field]
  congr 1
  omega

theorem toNat_immU (w : Word) : (immU w).toNat = (w.toNat / 512 % 64 * 8 + w.toNat / 8 % 8) * 128 := by
  rw [immU, BitVec.toNat_append, toNat_u9Field, BitVec.toNat_ofNat, Nat.zero_mod, Nat.or_zero, Nat.shiftLeft_eq]

/-- The low 4 bits of `imm_I` are `w[12:9]` (R72). -/
theorem toNat_immI_mod (w : Word) : (immI w).toNat % 16 = w.toNat / 512 % 16 := by
  rw [immI, BitVec.toNat_signExtend, BitVec.toNat_setWidth, toNat_extractLsb'_top w rfl]
  split <;> omega

/-! ### The immediate an operation takes from its fields (R78) -/

theorem immOperand_rop (rd rs2 : Reg) (op : ROp) : immOperand (op.instr rd rs2) = none := by cases op <;> rfl
theorem immOperand_iop (rd : Reg) (imm : Word) (op : IOp) : immOperand (op.instr rd imm) = some imm := by cases op <;> rfl
theorem immOperand_shiftOp (rd : Reg) (shamt : BitVec 4) (op : ShiftOp) : immOperand (op.instr rd shamt) = none := by
  cases op <;> rfl
theorem immOperand_bop (rs1 rs2 : Reg) (off : Word) (op : BOp) : immOperand (op.instr rs1 rs2 off) = some off := by
  cases op <;> rfl
theorem immOperand_sop (rs1 rs2 : Reg) (imm : Word) (op : SOp) : immOperand (op.instr rs1 rs2 imm) = some imm := by
  cases op <;> rfl
theorem immOperand_lop (rd rs2 : Reg) (imm : Word) (op : LOp) : immOperand (op.instr rd rs2 imm) = some imm := by
  cases op <;> rfl
theorem immOperand_jop (rd : Reg) (off : Word) (op : JOp) : immOperand (op.instr rd off) = some off := by cases op <;> rfl
theorem immOperand_uop (rd : Reg) (imm : Word) (op : UOp) : immOperand (op.instr rd imm) = some imm := by cases op <;> rfl

/-- Where a decoded instruction's immediate comes from: the assembled immediate of its word's format. -/
theorem immOperand_of_decode {t : FunctTable} {w : Word} {i : Instr} {imm : Word} (h : decode t w = .ok i)
    (himm : immOperand i = some imm) :
    (formatOf w = .i ∧ imm = immI w) ∨ (formatOf w = .b ∧ imm = immB w) ∨
    ((formatOf w = .s ∨ formatOf w = .l) ∧ imm = immSL w) ∨
    (formatOf w = .j ∧ imm = immJ w) ∨ (formatOf w = .u ∧ imm = immU w) := by
  rcases decode_ok_cases h with ⟨hf, op, -, rfl⟩ | ⟨hf, op, -, rfl⟩ | ⟨hf, op, -, rfl⟩ | ⟨hf, op, -, rfl⟩ |
    ⟨hf, op, -, rfl⟩ | ⟨hf, op, -, rfl⟩ | ⟨hf, op, -, rfl⟩ | ⟨hf, op, -, rfl⟩ | ⟨hf, -, rfl⟩
  · rw [immOperand_rop] at himm; cases himm
  · rw [immOperand_iop] at himm; cases himm; simp [hf]
  · rw [immOperand_shiftOp] at himm; cases himm
  · rw [immOperand_bop] at himm; cases himm; simp [hf]
  · rw [immOperand_sop] at himm; cases himm; simp [hf]
  · rw [immOperand_lop] at himm; cases himm; simp [hf]
  · rw [immOperand_jop] at himm; cases himm; simp [hf]
  · rw [immOperand_uop] at himm; cases himm; simp [hf]
  · cases himm

/-- Settles O7: the immediate is its format's assembled one, whose integer is read off the fields. -/
theorem immediatesOfEachFormat : Obligations.ImmediatesOfEachFormat := by
  intro t w i imm h himm
  rw [instrFormat_of_decode h]
  rcases immOperand_of_decode h himm with ⟨hf, rfl⟩ | ⟨hf, rfl⟩ | ⟨hf | hf, rfl⟩ | ⟨hf, rfl⟩ | ⟨hf, rfl⟩
  · simp [hf, toInt_immI]
  · simp [hf, toInt_immB]
  · simp [hf, toInt_immSL]
  · simp [hf, toInt_immSL]
  · simp [hf, toInt_immJ]
  · simp [hf, toNat_immU]

/-! ### The operands of a decoded shift and of a decoded ecall (R72, R77) -/

theorem ShiftOp.shamt_of_instr_eq {rd rd' : Reg} {shamt shamt' : BitVec 4} {op op' : ShiftOp}
    (h : op.instr rd shamt = op'.instr rd' shamt') : shamt = shamt' := by
  cases op <;> cases op' <;> cases h <;> rfl

theorem shamt_of_decode {t : FunctTable} {w : Word} {rd : Reg} {shamt : BitVec 4} (op : ShiftOp)
    (h : decode t w = .ok (op.instr rd shamt)) : shamt = shamtField w := by
  have hf : formatOf w = .i := by
    rw [← instrFormat_of_decode h]; cases op <;> rfl
  have hcases := decode_ok_cases h
  simp only [hf, reduceCtorEq, false_and, or_false, false_or, true_and] at hcases
  obtain ⟨iop, -, heq⟩ | ⟨sop, -, heq⟩ := hcases
  · have himm := congrArg immOperand heq
    rw [immOperand_shiftOp, immOperand_iop] at himm
    cases himm
  · exact ShiftOp.shamt_of_instr_eq heq

theorem svc_of_decode {t : FunctTable} {w : Word} {svc : BitVec 10} (h : decode t w = .ok (.ecall svc)) :
    svc = svcField w := by
  have hf : formatOf w = .sys := (instrFormat_of_decode h).symm
  have hcases := decode_ok_cases h
  simp only [hf, reduceCtorEq, false_and, false_or, true_and, Instr.ecall.injEq] at hcases
  exact hcases.2

/-- Settles O8: the two field numbers, and the operands of a shift and of an ecall, which are fields. -/
theorem shiftAmountAndServiceFields : Obligations.ShiftAmountAndServiceFields := by
  intro t w
  refine ⟨toNat_selField w, toNat_immI_mod w, fun rd shamt h => ?_, fun svc h => ?_⟩
  · have hshamt : shamt = shamtField w := by
      obtain h | h | h := h
      · exact shamt_of_decode .slli h
      · exact shamt_of_decode .srli h
      · exact shamt_of_decode .srai h
    rw [hshamt, toNat_shamtField]
  · rw [svc_of_decode h, toNat_svcField]

end Sys2Proof.Machine
end

section
/-!
The fetch and decode faults (60_exceptions.md R184, R186), and where an odd pc can come from (R184).
-/

namespace Sys2Proof.Machine

/-! ### The traps of the first half of a step (R96 steps 1 to 3) -/

theorem fetchDecode_of_pc_odd {s : State} (hrun : s.status = .running) (hodd : s.pc.toNat % 2 = 1) :
    fetchDecode s = .trap .alignmentError s.pc.toNat := by
  rw [fetchDecode, hrun]
  exact if_pos hodd

theorem fetchDecode_of_decode_error {s : State} {e : DecodeError} (hrun : s.status = .running)
    (heven : s.pc.toNat % 2 = 0) (hallowed : s.pc ∉ s.cfg.execForbidden)
    (herr : decode s.cfg.functs (fetchWord s) = .error e) :
    fetchDecode s = .trap .decodeError (fetchWord s).toNat := by
  have hnotOdd : ¬ s.pc.toNat % 2 = 1 := by omega
  rw [fetchDecode, hrun]
  simp only [if_neg hnotOdd, if_neg hallowed, herr]

/-- Settles O14: the decoder answers an error, so the first half of the step is the decode trap. -/
theorem illegalWordRaisesDecodeError : Obligations.IllegalWordRaisesDecodeError := by
  intro s hrun heven hallowed hillegal
  cases hdec : decode s.cfg.functs (fetchWord s) with
  | ok i => exact absurd hdec (hillegal i)
  | error e =>
    rw [step_of_trap (fetchDecode_of_decode_error hrun heven hallowed hdec), raise_eq_faultedWith]

/-! ### Relative offsets are even (R73, R75) -/

theorem signedField_emod_two {n v : Nat} (hn : 0 < n) (hv : v % 2 = 0) : signedField n v % 2 = 0 := by
  have hpow : (2 : Int) ^ n % 2 = 0 := Int.emod_eq_zero_of_dvd (dvd_pow_self 2 hn.ne')
  unfold signedField
  split <;> omega

theorem immB_emod_two (w : Word) : (immB w).toInt % 2 = 0 := by
  rw [toInt_immB]
  exact signedField_emod_two (by decide) (by omega)

theorem immJ_emod_two (w : Word) : (immJ w).toInt % 2 = 0 := by
  rw [toInt_immJ]
  exact signedField_emod_two (by decide) (by omega)

/-- Only branches and jumps select `Rel`, and they do so by their own offset operand (R110). -/
theorem immOperand_of_relOffset {s : State} {i : Instr} {off : Word} (h : relOffset s i = some off) :
    immOperand i = some off ∧ (instrFormat i = .b ∨ instrFormat i = .j) := by
  cases i
  case j | jal => exact ⟨h, .inr rfl⟩
  case beq | bne | bz | bnz | blt | bge | bltu | bgeu => exact ⟨(Option.ite_none_right_eq_some.1 h).2, .inl rfl⟩
  all_goals cases h

theorem relOffset_emod_two_of_decode {table : FunctTable} {w : Word} {s : State} {i : Instr} {off : Word}
    (hdec : decode table w = .ok i) (h : relOffset s i = some off) : off.toInt % 2 = 0 := by
  obtain ⟨himm, hformat⟩ := immOperand_of_relOffset h
  rw [instrFormat_of_decode hdec] at hformat
  rcases immOperand_of_decode hdec himm with ⟨hf, -⟩ | ⟨-, rfl⟩ | ⟨hf | hf, -⟩ | ⟨-, rfl⟩ | ⟨hf, -⟩
  · simp [hf] at hformat
  · exact immB_emod_two w
  · simp [hf] at hformat
  · simp [hf] at hformat
  · exact immJ_emod_two w
  · simp [hf] at hformat

/-! ### The pc an instruction leaves behind (R110, R111) -/

/-- Every pc an instruction can leave: its own (a fault, or Exit), the next one, its relative target, or, for jr and
jalr alone, a register's value. -/
theorem exec_pc_cases {i : Instr} {s t : State} (h : exec i s = .next t) :
    t.pc = s.pc ∨ t.pc.toNat = s.pc.toNat + 2 ∨
    (∃ off, relOffset s i = some off ∧ (t.pc.toNat : Int) = s.relTarget off) ∨
    ((∃ rd, i = .jr rd) ∨ ∃ rd rs2, i = .jalr rd rs2) := by
  rcases exec_next_cases h with ⟨reason, addr, rfl, -⟩ | ⟨e, hrange, rfl, -, -, -, hrel, habs⟩
  · exact .inl rfl
  · have hpc := toNat_ofInt_of_inPcRange hrange
    cases hnext : e.next with
    | seq =>
      rw [hnext, pcMux_seq] at hpc
      exact .inr (.inl (Int.ofNat_inj.1 hpc))
    | rel off =>
      rw [hnext, pcMux_rel] at hpc
      exact .inr (.inr (.inl ⟨off, hrel off hnext, hpc⟩))
    | abs v => exact .inr (.inr (.inr (habs v hnext)))
    | stay =>
      rw [hnext, pcMux_stay] at hpc
      exact .inl (BitVec.eq_of_toNat_eq (Int.ofNat_inj.1 hpc))

theorem registerJump_of_exec_pc_odd {table : FunctTable} {w : Word} {i : Instr} {s t : State}
    (hdec : decode table w = .ok i) (heven : s.pc.toNat % 2 = 0) (h : exec i s = .next t) (hodd : t.pc.toNat % 2 = 1) :
    (∃ rd, i = .jr rd) ∨ ∃ rd rs2, i = .jalr rd rs2 := by
  rcases exec_pc_cases h with hpc | hpc | ⟨off, hoff, hpc⟩ | hjump
  · rw [hpc] at hodd; omega
  · omega
  · have hoffEven := relOffset_emod_two_of_decode hdec hoff
    rw [State.relTarget] at hpc
    omega
  · exact hjump

/-- Settles O12: the fetch check for the first half; a step that executes nothing keeps the pc, and one that executes
an instruction keeps its parity unless that is jr or jalr. -/
theorem oddPcFaultsAndComesFromRegisterJumps : Obligations.OddPcFaultsAndComesFromRegisterJumps := by
  refine ⟨fun s hrun hodd => ?_, fun s t heven h hodd => ?_⟩
  · rw [step_of_trap (fetchDecode_of_pc_odd hrun hodd), raise_eq_faultedWith]
  · rcases step_next_cases h with ⟨-, rfl⟩ | ⟨reason, addr, -, rfl⟩ | ⟨i, hfetch, hexec⟩
    · omega
    · have hkept : (raise s reason addr).pc = s.pc := rfl
      rw [hkept] at hodd
      omega
    · obtain ⟨-, -, -, hdec⟩ := (fetchDecode_run_iff s i).1 hfetch
      exact ⟨i, hfetch, registerJump_of_exec_pc_odd hdec heven hexec hodd⟩

end Sys2Proof.Machine
end

section
/-!
The decoder by format (30_encoding.md R78): one equation per format, and one per word of the encoder. With them the round
trip from an instruction through its word (R79 to R86).
-/

namespace Sys2Proof.Machine

/-! ### The decoder, one equation per format (R78) -/

section formats
variable {table : FunctTable} {w : Word}

theorem decode_of_r (h : formatOf w = .r) :
    decode table w = orIllegal w ((table.r.lookup (funct4 w, funct3 w)).map (ROp.instr (rdField w) (rs2Field w))) := by
  simp only [decode, h]

theorem decode_of_i (h : formatOf w = .i) : decode table w = orIllegal w (iRow table w) := by simp only [decode, h]

theorem decode_of_b (h : formatOf w = .b) :
    decode table w = orIllegal w ((table.b.lookup (funct3 w)).map (BOp.instr (rdField w) (rs2Field w) (immB w))) := by
  simp only [decode, h]

theorem decode_of_s (h : formatOf w = .s) :
    decode table w = orIllegal w ((table.s.lookup (funct3 w)).map (SOp.instr (rdField w) (rs2Field w) (immSL w))) := by
  simp only [decode, h]

theorem decode_of_l (h : formatOf w = .l) :
    decode table w = orIllegal w ((table.l.lookup (funct3 w)).map (LOp.instr (rdField w) (rs2Field w) (immSL w))) := by
  simp only [decode, h]

theorem decode_of_j (h : formatOf w = .j) :
    decode table w = orIllegal w ((table.j.lookup (flagBit w)).map (JOp.instr (rdField w) (immJ w))) := by
  simp only [decode, h]

theorem decode_of_u (h : formatOf w = .u) :
    decode table w = orIllegal w ((table.u.lookup (flagBit w)).map (UOp.instr (rdField w) (immU w))) := by
  simp only [decode, h]

theorem decode_of_sys (h : formatOf w = .sys) :
    decode table w = if funct3 w = 0b000 then .ok (.ecall (svcField w)) else .error (.illegal w) := by
  simp only [decode, h]

/-- An I word whose funct3 names an operation on the immediate (R80). -/
theorem iRow_of_lookup {op : IOp} (h : table.i.lookup (funct3 w) = some op) :
    iRow table w = some (op.instr (rdField w) (immI w)) := by simp only [iRow, h]

/-- An I word whose funct3 names none (R80). -/
theorem iRow_of_lookup_none (h : table.i.lookup (funct3 w) = none) :
    iRow table w = (table.shift.lookup (funct3 w, selField w)).map (ShiftOp.instr (rdField w) (shamtField w)) := by
  simp only [iRow, h]

end formats

/-! ### Decoding each of the encoder's words (R63 to R70) -/

section words
variable (table : FunctTable)

theorem decode_rWord (f4 : BitVec 4) (rs2 rd : Reg) (f3 : BitVec 3) :
    decode table (rWord f4 rs2 rd f3) =
      orIllegal (rWord f4 rs2 rd f3) ((table.r.lookup (f4, f3)).map (ROp.instr rd rs2)) := by
  simp [decode_of_r]

/-- For a funct3 that names an operation on the immediate. -/
theorem decode_iWord {imm : Word} (hfits : fitsI imm = true) {f3 : BitVec 3} (h : (table.i.lookup f3).isSome = true)
    (rd : Reg) :
    decode table (iWord imm rd f3) = orIllegal (iWord imm rd f3) ((table.i.lookup f3).map (IOp.instr rd imm)) := by
  obtain ⟨op, hop⟩ := Option.isSome_iff_exists.1 h
  rw [decode_of_i (formatOf_iWord ..), iRow_of_lookup (by simpa using hop), rdField_iWord, immI_iWord hfits, hop]
  rfl

theorem decode_shiftWord (hi : table.i.lookup 3#3 = none) (sel : BitVec 3) (shamt : BitVec 4) (rd : Reg) :
    decode table (shiftWord sel shamt rd) =
      orIllegal (shiftWord sel shamt rd) ((table.shift.lookup (3#3, sel)).map (ShiftOp.instr rd shamt)) := by
  rw [decode_of_i (formatOf_shiftWord ..), iRow_of_lookup_none (by simpa using hi)]
  simp

theorem decode_bWord {off : Word} (hfits : fitsB off = true) (rs2 rs1 : Reg) (f3 : BitVec 3) :
    decode table (bWord off rs2 rs1 f3) =
      orIllegal (bWord off rs2 rs1 f3) ((table.b.lookup f3).map (BOp.instr rs1 rs2 off)) := by
  simp [decode_of_b, immB_bWord hfits]

theorem decode_sWord {imm : Word} (hfits : fitsSL imm = true) (rs2 rs1 : Reg) (f3 : BitVec 3) :
    decode table (sWord imm rs2 rs1 f3) =
      orIllegal (sWord imm rs2 rs1 f3) ((table.s.lookup f3).map (SOp.instr rs1 rs2 imm)) := by
  simp [decode_of_s, immSL_sWord hfits]

theorem decode_lWord {imm : Word} (hfits : fitsSL imm = true) (rs2 rd : Reg) (f3 : BitVec 3) :
    decode table (lWord imm rs2 rd f3) =
      orIllegal (lWord imm rs2 rd f3) ((table.l.lookup f3).map (LOp.instr rd rs2 imm)) := by
  simp [decode_of_l, immSL_lWord hfits]

theorem decode_jWord {off : Word} (hfits : fitsJ off = true) (link : BitVec 1) (rd : Reg) :
    decode table (jWord link off rd) =
      orIllegal (jWord link off rd) ((table.j.lookup (link.getLsbD 0)).map (JOp.instr rd off)) := by
  rw [decode_of_j (formatOf_jWord ..), flagBit_jWord, rdField_jWord, immJ_jWord hfits]

theorem decode_uWord {imm : Word} (hfits : fitsU imm = true) (flag : BitVec 1) (rd : Reg) :
    decode table (uWord flag imm rd) =
      orIllegal (uWord flag imm rd) ((table.u.lookup (flag.getLsbD 0)).map (UOp.instr rd imm)) := by
  rw [decode_of_u (formatOf_uWord ..), flagBit_uWord, rdField_uWord, immU_uWord hfits]

theorem decode_sysWord (svc : BitVec 10) : decode table (sysWord svc) = .ok (.ecall svc) := by
  simp [decode_of_sys]

end words

/-- Settles O1: decoding the word gives its operands back, and its function code is the row of its own operation. -/
theorem decodeOfEncodeIsIdentity : Obligations.DecodeOfEncodeIsIdentity := by
  intro i hwf
  cases i
  case add | sub | slt | sltu | sll | srl | sra | or | and | xor | mv | jr | jalr => exact decode_rWord ..
  case addi | slti | sltiu | ori | andi | xori | li => exact decode_iWord _ hwf (by rfl) _
  case slli | srli | srai => exact decode_shiftWord _ rfl ..
  case beq | bne | bz | bnz | blt | bge | bltu | bgeu => exact decode_bWord _ hwf ..
  case sb | sw => exact decode_sWord _ hwf ..
  case lb | lw | lbu => exact decode_lWord _ hwf ..
  case j | jal => exact decode_jWord _ hwf ..
  case lui | auipc => exact decode_uWord _ hwf ..
  case ecall => exact decode_sysWord ..

end Sys2Proof.Machine
end

section
/-!
What the decoder makes of every word (30_encoding.md sections 2, 4, 6 and 7): the ranges of the immediates, the bits an
instruction does not use, the way back through the encoder, and the illegal words.
-/

namespace Sys2Proof.Machine

/-! ### The assembled immediates fit their ranges (R71 to R76) -/

theorem fitsI_immI (w : Word) : fitsI (immI w) = true := by
  have hw := w.isLt
  simp only [fitsI, toInt_immI, signedField, Bool.and_eq_true, decide_eq_true_eq]
  split <;> omega

theorem fitsB_immB (w : Word) : fitsB (immB w) = true := by
  have hw := w.isLt
  have heven := immB_emod_two w
  simp only [toInt_immB, signedField] at heven
  simp only [fitsB, toInt_immB, signedField, Bool.and_eq_true, decide_eq_true_eq]
  refine ⟨?_, heven⟩
  split <;> omega

theorem fitsSL_immSL (w : Word) : fitsSL (immSL w) = true := by
  have hw := w.isLt
  simp only [fitsSL, toInt_immSL, signedField, Bool.and_eq_true, decide_eq_true_eq]
  split <;> omega

theorem fitsJ_immJ (w : Word) : fitsJ (immJ w) = true := by
  have heven := immJ_emod_two w
  simp only [toInt_immJ, signedField] at heven
  simp only [fitsJ, toInt_immJ, signedField, Bool.and_eq_true, decide_eq_true_eq]
  refine ⟨?_, heven⟩
  split <;> omega

theorem fitsU_immU (w : Word) : fitsU (immU w) = true := by
  rw [fitsU, toNat_immU, decide_eq_true_eq, Nat.mul_mod_left]

/-- Settles O2: each operation takes the immediate its format assembles, which fits that format's range. -/
theorem decodedInstructionIsWellFormed : Obligations.DecodedInstructionIsWellFormed := by
  intro t w i h
  rcases decode_ok_cases h with ⟨-, op, -, rfl⟩ | ⟨-, op, -, rfl⟩ | ⟨-, op, -, rfl⟩ | ⟨-, op, -, rfl⟩ |
    ⟨-, op, -, rfl⟩ | ⟨-, op, -, rfl⟩ | ⟨-, op, -, rfl⟩ | ⟨-, op, -, rfl⟩ | ⟨-, -, rfl⟩
  · cases op <;> rfl
  · cases op <;> exact fitsI_immI w
  · cases op <;> rfl
  · cases op <;> exact fitsB_immB w
  · cases op <;> exact fitsSL_immSL w
  · cases op <;> exact fitsSL_immSL w
  · cases op <;> exact fitsJ_immJ w
  · cases op <;> exact fitsU_immU w
  · rfl

/-! ### The bits an instruction does not use (R88) -/

/-- Two words that agree outside a mask have the same field wherever the mask is zero. -/
theorem extractLsb'_eq_of_and_not_eq {w w' mask : Word} (h : w' &&& ~~~ mask = w &&& ~~~ mask) (start len : Nat)
    (hmask : mask.extractLsb' start len = 0) : w'.extractLsb' start len = w.extractLsb' start len := by
  apply BitVec.eq_of_getLsbD_eq
  intro n hn
  have hbit := congrArg (fun v => v.getLsbD (start + n)) h
  have hclear := congrArg (fun v => v.getLsbD n) hmask
  simp only [BitVec.getLsbD_extractLsb', hn, decide_true, Bool.true_and, BitVec.ofNat_eq_ofNat,
    BitVec.getLsbD_zero] at hclear ⊢
  by_cases hlt : start + n < 16
  · simpa only [BitVec.getLsbD_and, BitVec.getLsbD_not, hlt, hclear, decide_true, Bool.not_false, Bool.and_true]
      using hbit
  · rw [BitVec.getLsbD_of_ge _ _ (by omega), BitVec.getLsbD_of_ge _ _ (by omega)]

theorem and_not_zero (w : Word) : w &&& ~~~ (0 : Word) = w := by
  rw [BitVec.ofNat_eq_ofNat, BitVec.not_zero, BitVec.and_allOnes]

theorem formatOf_eq_of_opField_eq {w w' : Word} (h : opField w' = opField w) : formatOf w' = formatOf w := by
  rw [formatOf, h]; rfl

theorem dontCare_rop (rd rs2 : Reg) (op : ROp) : dontCare (op.instr rd rs2) = if op = .jr then 0x0E00 else 0 := by
  cases op <;> rfl
theorem dontCare_iop (rd : Reg) (imm : Word) (op : IOp) : dontCare (op.instr rd imm) = 0 := by cases op <;> rfl
theorem dontCare_shiftOp (rd : Reg) (shamt : BitVec 4) (op : ShiftOp) : dontCare (op.instr rd shamt) = 0 := by
  cases op <;> rfl
theorem dontCare_bop (rs1 rs2 : Reg) (off : Word) (op : BOp) :
    dontCare (op.instr rs1 rs2 off) = if op = .bz ∨ op = .bnz then 0x0E00 else 0 := by cases op <;> rfl
theorem dontCare_sop (rs1 rs2 : Reg) (imm : Word) (op : SOp) : dontCare (op.instr rs1 rs2 imm) = 0 := by cases op <;> rfl
theorem dontCare_lop (rd rs2 : Reg) (imm : Word) (op : LOp) : dontCare (op.instr rd rs2 imm) = 0 := by cases op <;> rfl
theorem dontCare_jop (rd : Reg) (off : Word) (op : JOp) :
    dontCare (op.instr rd off) = if op = .j then 0x01C0 else 0 := by cases op <;> rfl
theorem dontCare_uop (rd : Reg) (imm : Word) (op : UOp) : dontCare (op.instr rd imm) = 0 := by cases op <;> rfl

/-- A word that decodes with unused bits is a `jr`, a `bz` or `bnz`, or a `j`, found by its fields. -/
theorem decode_ok_of_dontCare_ne_zero {t : FunctTable} {w : Word} {i : Instr} (h : decode t w = .ok i)
    (hne : dontCare i ≠ 0) :
    (formatOf w = .r ∧ t.r.lookup (funct4 w, funct3 w) = some .jr ∧ i = .jr (rdField w)) ∨
    (formatOf w = .b ∧ t.b.lookup (funct3 w) = some .bz ∧ i = .bz (rdField w) (immB w)) ∨
    (formatOf w = .b ∧ t.b.lookup (funct3 w) = some .bnz ∧ i = .bnz (rdField w) (immB w)) ∨
    (formatOf w = .j ∧ t.j.lookup (flagBit w) = some .j ∧ i = .j (immJ w)) := by
  rcases decode_ok_cases h with ⟨hf, op, hop, rfl⟩ | ⟨-, op, -, rfl⟩ | ⟨-, op, -, rfl⟩ | ⟨hf, op, hop, rfl⟩ |
    ⟨-, op, -, rfl⟩ | ⟨-, op, -, rfl⟩ | ⟨hf, op, hop, rfl⟩ | ⟨-, op, -, rfl⟩ | ⟨-, -, rfl⟩
  · rw [dontCare_rop] at hne
    obtain rfl : op = .jr := by by_contra hop'; exact hne (if_neg hop')
    exact .inl ⟨hf, hop, rfl⟩
  · exact absurd (dontCare_iop ..) hne
  · exact absurd (dontCare_shiftOp ..) hne
  · rw [dontCare_bop] at hne
    obtain rfl | rfl : op = .bz ∨ op = .bnz := by by_contra hop'; exact hne (if_neg hop')
    · exact .inr (.inl ⟨hf, hop, rfl⟩)
    · exact .inr (.inr (.inl ⟨hf, hop, rfl⟩))
  · exact absurd (dontCare_sop ..) hne
  · exact absurd (dontCare_lop ..) hne
  · rw [dontCare_jop] at hne
    obtain rfl : op = .j := by by_contra hop'; exact hne (if_neg hop')
    exact .inr (.inr (.inr ⟨hf, hop, rfl⟩))
  · exact absurd (dontCare_uop ..) hne
  · exact absurd rfl hne

/-- Words that agree outside `rs2` have every other field of the R and B formats in common (R63, R65). -/
theorem fields_eq_outside_rs2 {w w' : Word} (h : w' &&& ~~~ 0x0E00 = w &&& ~~~ 0x0E00) :
    formatOf w' = formatOf w ∧ funct3 w' = funct3 w ∧ rdField w' = rdField w ∧ funct4 w' = funct4 w ∧
      immB w' = immB w := by
  have hfield := extractLsb'_eq_of_and_not_eq h
  have htop := hfield 12 4 (by decide)
  exact ⟨formatOf_eq_of_opField_eq (hfield 0 3 (by decide)), hfield 3 3 (by decide), hfield 6 3 (by decide), htop,
    congrArg (fun v => (v ++ 0#1).signExtend 16) htop⟩

/-- Words that agree outside `rd` have every other field of the J format in common (R68). -/
theorem fields_eq_outside_rd {w w' : Word} (h : w' &&& ~~~ 0x01C0 = w &&& ~~~ 0x01C0) :
    formatOf w' = formatOf w ∧ flagBit w' = flagBit w ∧ immJ w' = immJ w := by
  have hfield := extractLsb'_eq_of_and_not_eq h
  refine ⟨formatOf_eq_of_opField_eq (hfield 0 3 (by decide)), ?_, ?_⟩
  · simpa [flagBit] using congrArg (fun v => v.getLsbD 0) (hfield 15 1 (by decide))
  · rw [immJ, immJ, hfield 9 6 (by decide), hfield 3 3 (by decide)]

/-- Settles O9: the fields that select the row, and those the instruction uses, lie outside its don't-care bits. -/
theorem dontCareFieldsAreIgnored : Obligations.DontCareFieldsAreIgnored := by
  intro t w w' i h hagree
  by_cases hzero : dontCare i = 0
  · rw [hzero, and_not_zero, and_not_zero] at hagree
    rwa [hagree]
  rcases decode_ok_of_dontCare_ne_zero h hzero with ⟨hf, hop, rfl⟩ | ⟨hf, hop, rfl⟩ | ⟨hf, hop, rfl⟩ | ⟨hf, hop, rfl⟩
  · obtain ⟨hformat, h3, hrd, h4, -⟩ := fields_eq_outside_rs2 hagree
    rw [decode_of_r (hformat.trans hf), h4, h3, hop, hrd]; rfl
  · obtain ⟨hformat, h3, hrd, -, himm⟩ := fields_eq_outside_rs2 hagree
    rw [decode_of_b (hformat.trans hf), h3, hop, hrd, himm]; rfl
  · obtain ⟨hformat, h3, hrd, -, himm⟩ := fields_eq_outside_rs2 hagree
    rw [decode_of_b (hformat.trans hf), h3, hop, hrd, himm]; rfl
  · obtain ⟨hformat, hflag, himm⟩ := fields_eq_outside_rd hagree
    rw [decode_of_j (hformat.trans hf), hflag, hop, himm]; rfl

/-! ### The way back: a word is its fields (R62 to R76) -/

/-- The low three bits of each format (R62). -/
def formatCode : Format → BitVec 3
  | .r => 0 | .i => 1 | .b => 2 | .s => 3 | .l => 4 | .j => 5 | .u => 6 | .sys => 7

theorem opField_eq_formatCode (w : Word) : opField w = formatCode (formatOf w) := by
  unfold formatOf
  generalize opField w = op
  revert op
  decide

/-- Low bits of a sign-extended field are the field's own. -/
theorem extractLsb'_signExtend {n : Nat} (f : BitVec n) {start len : Nat} (h : start + len ≤ n) (hn : n ≤ 16) :
    (f.signExtend 16).extractLsb' start len = f.extractLsb' start len := by
  apply BitVec.eq_of_getLsbD_eq
  intro k hk
  have hword : start + k < 16 := by omega
  have hfield : start + k < n := by omega
  simp only [BitVec.getLsbD_extractLsb', BitVec.getLsbD_signExtend, hword, hfield, decide_true, Bool.true_and, if_true]

theorem extract_immI (w : Word) : (immI w).extractLsb' 0 7 = w.extractLsb' 9 7 := by
  rw [immI, extractLsb'_signExtend _ (by decide) (by decide), BitVec.extractLsb'_eq_self]

theorem extract_immB (w : Word) : (immB w).extractLsb' 1 4 = w.extractLsb' 12 4 := by
  rw [immB, extractLsb'_signExtend _ (by decide) (by decide), BitVec.extractLsb'_append_eq_left]

theorem extract_immSL (w : Word) : (immSL w).extractLsb' 0 4 = w.extractLsb' 12 4 := by
  rw [immSL, extractLsb'_signExtend _ (by decide) (by decide), BitVec.extractLsb'_eq_self]

theorem extract_high_immJ (w : Word) : (immJ w).extractLsb' 4 6 = w.extractLsb' 9 6 := by
  rw [immJ, extractLsb'_signExtend _ (by decide) (by decide), BitVec.extractLsb'_append_eq_of_le (by decide),
    BitVec.extractLsb'_append_eq_left]

theorem extract_low_immJ (w : Word) : (immJ w).extractLsb' 1 3 = w.extractLsb' 3 3 := by
  rw [immJ, extractLsb'_signExtend _ (by decide) (by decide), BitVec.extractLsb'_append_eq_of_le (by decide),
    BitVec.extractLsb'_append_eq_right]

theorem extract_high_immU (w : Word) : (immU w).extractLsb' 10 6 = w.extractLsb' 9 6 := by
  rw [immU, u9Field, BitVec.extractLsb'_append_eq_of_le (by decide), BitVec.extractLsb'_append_eq_left]

theorem extract_low_immU (w : Word) : (immU w).extractLsb' 7 3 = w.extractLsb' 3 3 := by
  rw [immU, u9Field, BitVec.extractLsb'_append_eq_of_le (by decide), BitVec.extractLsb'_append_eq_right]

theorem ofBool_flagBit (w : Word) : BitVec.ofBool (flagBit w) = w.extractLsb' 15 1 := by
  apply BitVec.eq_of_getLsbD_eq
  intro n hn
  obtain rfl : n = 0 := by omega
  simp [flagBit]

section fields
variable {w : Word}

theorem rWord_fields (h : formatOf w = .r) : rWord (funct4 w) (rs2Field w) (rdField w) (funct3 w) = w := by
  have hop : 0b000#3 = opField w := by rw [opField_eq_formatCode, h]; rfl
  simp only [rWord, hop, funct4, rs2Field, rdField, funct3, opField,
    BitVec.extractLsb'_append_extractLsb'_eq_extractLsb']
  exact BitVec.extractLsb'_eq_self

theorem iWord_fields (h : formatOf w = .i) : iWord (immI w) (rdField w) (funct3 w) = w := by
  have hop : 0b001#3 = opField w := by rw [opField_eq_formatCode, h]; rfl
  simp only [iWord, hop, extract_immI, rdField, funct3, opField, BitVec.extractLsb'_append_extractLsb'_eq_extractLsb']
  exact BitVec.extractLsb'_eq_self

theorem shiftWord_fields (h : formatOf w = .i) (h3 : funct3 w = 3#3) :
    shiftWord (selField w) (shamtField w) (rdField w) = w := by
  have hop : 0b001#3 = opField w := by rw [opField_eq_formatCode, h]; rfl
  rw [shiftWord, hop, ← h3]
  simp only [selField, shamtField, rdField, funct3, opField, BitVec.extractLsb'_append_extractLsb'_eq_extractLsb']
  exact BitVec.extractLsb'_eq_self

theorem bWord_fields (h : formatOf w = .b) : bWord (immB w) (rs2Field w) (rdField w) (funct3 w) = w := by
  have hop : 0b010#3 = opField w := by rw [opField_eq_formatCode, h]; rfl
  simp only [bWord, hop, extract_immB, rs2Field, rdField, funct3, opField,
    BitVec.extractLsb'_append_extractLsb'_eq_extractLsb']
  exact BitVec.extractLsb'_eq_self

theorem sWord_fields (h : formatOf w = .s) : sWord (immSL w) (rs2Field w) (rdField w) (funct3 w) = w := by
  have hop : 0b011#3 = opField w := by rw [opField_eq_formatCode, h]; rfl
  simp only [sWord, hop, extract_immSL, rs2Field, rdField, funct3, opField,
    BitVec.extractLsb'_append_extractLsb'_eq_extractLsb']
  exact BitVec.extractLsb'_eq_self

theorem lWord_fields (h : formatOf w = .l) : lWord (immSL w) (rs2Field w) (rdField w) (funct3 w) = w := by
  have hop : 0b100#3 = opField w := by rw [opField_eq_formatCode, h]; rfl
  simp only [lWord, hop, extract_immSL, rs2Field, rdField, funct3, opField,
    BitVec.extractLsb'_append_extractLsb'_eq_extractLsb']
  exact BitVec.extractLsb'_eq_self

theorem jWord_fields (h : formatOf w = .j) : jWord (BitVec.ofBool (flagBit w)) (immJ w) (rdField w) = w := by
  have hop : 0b101#3 = opField w := by rw [opField_eq_formatCode, h]; rfl
  simp only [jWord, hop, ofBool_flagBit, extract_high_immJ, extract_low_immJ, rdField, opField,
    BitVec.extractLsb'_append_extractLsb'_eq_extractLsb']
  exact BitVec.extractLsb'_eq_self

theorem uWord_fields (h : formatOf w = .u) : uWord (BitVec.ofBool (flagBit w)) (immU w) (rdField w) = w := by
  have hop : 0b110#3 = opField w := by rw [opField_eq_formatCode, h]; rfl
  simp only [uWord, hop, ofBool_flagBit, extract_high_immU, extract_low_immU, rdField, opField,
    BitVec.extractLsb'_append_extractLsb'_eq_extractLsb']
  exact BitVec.extractLsb'_eq_self

theorem sysWord_fields (h : formatOf w = .sys) (h3 : funct3 w = 0#3) : sysWord (svcField w) = w := by
  have hop : 0b111#3 = opField w := by rw [opField_eq_formatCode, h]; rfl
  rw [sysWord, hop, ← h3]
  simp only [svcField, funct3, opField, BitVec.extractLsb'_append_extractLsb'_eq_extractLsb']
  exact BitVec.extractLsb'_eq_self

end fields

/-! ### The encoder's row of an operation is the one the decoder found (R79 to R85) -/

theorem mem_of_lookup {α β : Type} [BEq α] [LawfulBEq α] {rows : List (α × β)} {code : α} {op : β}
    (h : rows.lookup code = some op) : (code, op) ∈ rows := by
  obtain ⟨before, later, rfl, -⟩ := List.lookup_eq_some_iff.1 h
  simp

theorem encode_rop (rd rs2 : Reg) : ∀ row ∈ defaultFunctTable.r,
    encode (row.2.instr rd rs2) = rWord row.1.1 (if row.2 = .jr then 0 else rs2) rd row.1.2 := by
  intro row h
  fin_cases h <;> rfl

theorem encode_iop (rd : Reg) (imm : Word) : ∀ row ∈ defaultFunctTable.i,
    encode (row.2.instr rd imm) = iWord imm rd row.1 := by
  intro row h
  fin_cases h <;> rfl

theorem encode_shiftOp (rd : Reg) (shamt : BitVec 4) : ∀ row ∈ defaultFunctTable.shift,
    row.1.1 = 3#3 ∧ encode (row.2.instr rd shamt) = shiftWord row.1.2 shamt rd := by
  intro row h
  fin_cases h <;> exact ⟨rfl, rfl⟩

theorem encode_bop (rs1 rs2 : Reg) (off : Word) : ∀ row ∈ defaultFunctTable.b,
    encode (row.2.instr rs1 rs2 off) = bWord off (if row.2 = .bz ∨ row.2 = .bnz then 0 else rs2) rs1 row.1 := by
  intro row h
  fin_cases h <;> rfl

theorem encode_sop (rs1 rs2 : Reg) (imm : Word) : ∀ row ∈ defaultFunctTable.s,
    encode (row.2.instr rs1 rs2 imm) = sWord imm rs2 rs1 row.1 := by
  intro row h
  fin_cases h <;> rfl

theorem encode_lop (rd rs2 : Reg) (imm : Word) : ∀ row ∈ defaultFunctTable.l,
    encode (row.2.instr rd rs2 imm) = lWord imm rs2 rd row.1 := by
  intro row h
  fin_cases h <;> rfl

theorem encode_jop (rd : Reg) (off : Word) : ∀ row ∈ defaultFunctTable.j,
    encode (row.2.instr rd off) = jWord (BitVec.ofBool row.1) off (if row.2 = .j then 0 else rd) := by
  intro row h
  fin_cases h <;> rfl

theorem encode_uop (rd : Reg) (imm : Word) : ∀ row ∈ defaultFunctTable.u,
    encode (row.2.instr rd imm) = uWord (BitVec.ofBool row.1) imm rd := by
  intro row h
  fin_cases h <;> rfl

/-! ### A word with its unused field cleared -/

theorem rWord_and_not_rs2 (f4 : BitVec 4) (rs2 rd : Reg) (f3 : BitVec 3) :
    rWord f4 rs2 rd f3 &&& ~~~ 0x0E00 = rWord f4 0 rd f3 := by
  apply BitVec.eq_of_getLsbD_eq
  intro n hn
  have hmask : (~~~ 0x0E00#16).getLsbD n = decide (n < 9 ∨ 12 ≤ n) := by revert n; decide
  simp only [BitVec.getLsbD_and, BitVec.ofNat_eq_ofNat, hmask, rWord, BitVec.getLsbD_append]
  interval_cases n <;> simp

theorem bWord_and_not_rs2 (off : Word) (rs2 rs1 : Reg) (f3 : BitVec 3) :
    bWord off rs2 rs1 f3 &&& ~~~ 0x0E00 = bWord off 0 rs1 f3 := by
  apply BitVec.eq_of_getLsbD_eq
  intro n hn
  have hmask : (~~~ 0x0E00#16).getLsbD n = decide (n < 9 ∨ 12 ≤ n) := by revert n; decide
  simp only [BitVec.getLsbD_and, BitVec.ofNat_eq_ofNat, hmask, bWord, BitVec.getLsbD_append]
  interval_cases n <;> simp

theorem jWord_and_not_rd (link : BitVec 1) (off : Word) (rd : Reg) :
    jWord link off rd &&& ~~~ 0x01C0 = jWord link off 0 := by
  apply BitVec.eq_of_getLsbD_eq
  intro n hn
  have hmask : (~~~ 0x01C0#16).getLsbD n = decide (n < 6 ∨ 9 ≤ n) := by revert n; decide
  simp only [BitVec.getLsbD_and, BitVec.ofNat_eq_ofNat, hmask, jWord, BitVec.getLsbD_append]
  interval_cases n <;> simp

/-- Settles O3: the encoder's row is the one the decoder found, and a word is its fields; only the formats of jr, of bz
and bnz, and of j have a field that the instruction may leave out. -/
theorem encodeOfDecodeKeepsUsedBits : Obligations.EncodeOfDecodeKeepsUsedBits := by
  intro w i h
  rcases decode_ok_cases h with ⟨hf, op, hop, rfl⟩ | ⟨hf, op, hop, rfl⟩ | ⟨hf, op, hop, rfl⟩ | ⟨hf, op, hop, rfl⟩ |
    ⟨hf, op, hop, rfl⟩ | ⟨hf, op, hop, rfl⟩ | ⟨hf, op, hop, rfl⟩ | ⟨hf, op, hop, rfl⟩ | ⟨hf, h3, rfl⟩
  · rw [encode_rop _ _ _ (mem_of_lookup hop), dontCare_rop]
    split
    · rw [← rWord_and_not_rs2 _ (rs2Field w), rWord_fields hf]
    · rw [and_not_zero, rWord_fields hf]
  · rw [encode_iop _ _ _ (mem_of_lookup hop), dontCare_iop, and_not_zero, iWord_fields hf]
  · obtain ⟨h3, hword⟩ := encode_shiftOp (rdField w) (shamtField w) _ (mem_of_lookup hop)
    rw [hword, dontCare_shiftOp, and_not_zero, shiftWord_fields hf h3]
  · rw [encode_bop _ _ _ _ (mem_of_lookup hop), dontCare_bop]
    split
    · rw [← bWord_and_not_rs2 _ (rs2Field w), bWord_fields hf]
    · rw [and_not_zero, bWord_fields hf]
  · rw [encode_sop _ _ _ _ (mem_of_lookup hop), dontCare_sop, and_not_zero, sWord_fields hf]
  · rw [encode_lop _ _ _ _ (mem_of_lookup hop), dontCare_lop, and_not_zero, lWord_fields hf]
  · rw [encode_jop _ _ _ (mem_of_lookup hop), dontCare_jop]
    split
    · rw [← jWord_and_not_rd _ _ (rdField w), jWord_fields hf]
    · rw [and_not_zero, jWord_fields hf]
  · rw [encode_uop _ _ _ (mem_of_lookup hop), dontCare_uop, and_not_zero, uWord_fields hf]
  · exact (sysWord_fields hf h3).trans (and_not_zero w).symm

/-! ### The format and the illegal words, by the number of the word (R62, R87) -/

theorem toNat_mod_eight (w : Word) : w.toNat % 8 = (formatCode (formatOf w)).toNat := by
  rw [← opField_eq_formatCode, opField, toNat_extractLsb'_eq_div_mod, pow_zero, Nat.div_one]
  rfl

/-- Settles O6: the format code is the word's low three bits; the words 0 to 7 decode, one of each format. -/
theorem lowThreeBitsSelectTheFormat : Obligations.LowThreeBitsSelectTheFormat := by
  refine ⟨fun t w i h => ?_, fun op hop => ?_⟩
  · rw [instrFormat_of_decode h, toNat_mod_eight]
    cases formatOf w <;> rfl
  · refine ⟨BitVec.ofNat 16 op, ?_⟩
    interval_cases op <;> exact ⟨_, rfl, rfl⟩

theorem toNat_funct3 (w : Word) : (funct3 w).toNat = w.toNat / 8 % 8 := toNat_extractLsb'_eq_div_mod w 3 3

theorem toNat_funct4 (w : Word) : (funct4 w).toNat = w.toNat / 4096 := toNat_extractLsb'_top w rfl

theorem orIllegal_eq_error_iff {w : Word} {o : Option Instr} : orIllegal w o = .error (.illegal w) ↔ o = none := by
  cases o <;> simp [orIllegal]

theorem default_r_lookup_eq_none_iff : ∀ (f4 : BitVec 4) (f3 : BitVec 3),
    defaultFunctTable.r.lookup (f4, f3) = none ↔ (f4.toNat, f3.toNat) ∉
      [(0, 0), (1, 0), (2, 1), (3, 2), (4, 3), (5, 3), (6, 3), (7, 4), (8, 5), (9, 6), (10, 7), (11, 0), (12, 0)] := by
  decide

theorem default_i_lookup_eq_none_iff : ∀ f3 : BitVec 3, defaultFunctTable.i.lookup f3 = none ↔ f3.toNat = 3 := by
  decide

theorem default_shift_lookup_eq_none_iff : ∀ sel : BitVec 3,
    defaultFunctTable.shift.lookup (3#3, sel) = none ↔ sel.toNat ∉ [1, 2, 4] := by
  decide

theorem default_b_lookup_ne_none : ∀ f3 : BitVec 3, defaultFunctTable.b.lookup f3 ≠ none := by decide

theorem default_s_lookup_eq_none_iff : ∀ f3 : BitVec 3, defaultFunctTable.s.lookup f3 = none ↔ 2 ≤ f3.toNat := by
  decide

theorem default_l_lookup_eq_none_iff : ∀ f3 : BitVec 3,
    defaultFunctTable.l.lookup f3 = none ↔ f3.toNat ∈ [2, 3, 5, 6, 7] := by
  decide

theorem default_j_lookup_ne_none : ∀ flag : Bool, defaultFunctTable.j.lookup flag ≠ none := by decide

theorem default_u_lookup_ne_none : ∀ flag : Bool, defaultFunctTable.u.lookup flag ≠ none := by decide

/-- An I word matches no default row exactly where it is a shift whose selector is none of the three (R80). -/
theorem default_iRow_eq_none_iff (w : Word) :
    iRow defaultFunctTable w = none ↔ (funct3 w).toNat = 3 ∧ (selField w).toNat ∉ [1, 2, 4] := by
  cases hi : defaultFunctTable.i.lookup (funct3 w) with
  | some op =>
    have hne : (funct3 w).toNat ≠ 3 := fun h3 => by
      rw [(default_i_lookup_eq_none_iff _).2 h3] at hi; cases hi
    simp [iRow_of_lookup hi, hne]
  | none =>
    have h3 := (default_i_lookup_eq_none_iff _).1 hi
    have hbits : funct3 w = 3#3 := BitVec.eq_of_toNat_eq h3
    rw [iRow_of_lookup_none hi, Option.map_eq_none_iff, hbits, default_shift_lookup_eq_none_iff]
    simp

/-- Settles O4: in each format, the codes that no row of the default table holds. -/
theorem illegalWordsAreExactlyTheListed : Obligations.IllegalWordsAreExactlyTheListed := by
  intro w
  have hcode := toNat_mod_eight w
  rw [← toNat_funct3, ← toNat_funct4, ← toNat_selField]
  cases hf : formatOf w <;> rw [hf] at hcode
  case r =>
    rw [decode_of_r hf, orIllegal_eq_error_iff, Option.map_eq_none_iff, default_r_lookup_eq_none_iff]
    simp [hcode, formatCode]
  case i =>
    rw [decode_of_i hf, orIllegal_eq_error_iff, default_iRow_eq_none_iff]
    simp [hcode, formatCode]
  case b =>
    rw [decode_of_b hf, orIllegal_eq_error_iff, Option.map_eq_none_iff, iff_false_left (default_b_lookup_ne_none _)]
    simp [hcode, formatCode]
  case s =>
    rw [decode_of_s hf, orIllegal_eq_error_iff, Option.map_eq_none_iff, default_s_lookup_eq_none_iff]
    simp [hcode, formatCode]
  case l =>
    rw [decode_of_l hf, orIllegal_eq_error_iff, Option.map_eq_none_iff, default_l_lookup_eq_none_iff]
    simp [hcode, formatCode]
  case j =>
    rw [decode_of_j hf, orIllegal_eq_error_iff, Option.map_eq_none_iff, iff_false_left (default_j_lookup_ne_none _)]
    simp [hcode, formatCode]
  case u =>
    rw [decode_of_u hf, orIllegal_eq_error_iff, Option.map_eq_none_iff, iff_false_left (default_u_lookup_ne_none _)]
    simp [hcode, formatCode]
  case sys =>
    rw [decode_of_sys hf]
    simp [hcode, formatCode, ← BitVec.toNat_inj]

/-- Settles O5: the decoder evaluated on each of the eight words. -/
theorem sampleWordsDecode : Obligations.SampleWordsDecode :=
  ⟨rfl, rfl, rfl, rfl, rfl, rfl, rfl, rfl⟩

end Sys2Proof.Machine
end

section
/-!
The ALU in exact arithmetic (40_datapath.md R102 to R106), and the register and immediate operations that complete with
its result (41_r_type.md, 42_i_type.md, 47_u_type.md).
-/

namespace Sys2Proof.Machine

/-- Settles O24: what a register file reads as after one write. -/
theorem registerCellsAreIndependent : Obligations.RegisterCellsAreIndependent := by
  intro s r q v
  exact getElem_setReg s.regs r q v

/-! ### Each ALU operation as the bit vector of an integer (R102 to R106) -/

section operations
variable (a b : Word)

theorem shiftAmount_eq : shiftAmount b = b.toNat % 16 := toNat_extractLsb'_eq_div_mod b 0 4 |>.trans (by simp)

theorem alu_add : alu .add a b = BitVec.ofNat 16 (a.toNat + b.toNat) := by
  rw [BitVec.ofNat_add, BitVec.ofNat_toNat, BitVec.ofNat_toNat]; simp [alu]

theorem alu_sub : alu .sub a b = BitVec.ofInt 16 ((a.toNat : Int) - b.toNat) := by
  rw [Int.sub_eq_add_neg, BitVec.ofInt_add, BitVec.ofInt_neg, ofInt_toNat_word, ofInt_toNat_word]
  exact BitVec.sub_eq_add_neg a b

theorem alu_slt : alu .slt a b = if a.toInt < b.toInt then 1 else 0 := by simp [alu, truthWord, signedLess]

theorem alu_sltu : alu .sltu a b = if a.toNat < b.toNat then 1 else 0 := by simp [alu, truthWord, unsignedLess]

theorem alu_sll : alu .sll a b = BitVec.ofNat 16 (a.toNat * 2 ^ (b.toNat % 16)) := by
  rw [alu, shiftAmount_eq, ← Nat.shiftLeft_eq]
  apply BitVec.eq_of_toNat_eq
  simp

theorem toNat_alu_srl : (alu .srl a b).toNat = a.toNat / 2 ^ (b.toNat % 16) := by
  rw [alu, shiftAmount_eq, BitVec.toNat_ushiftRight, Nat.shiftRight_eq_div_pow]

theorem alu_srl : alu .srl a b = BitVec.ofNat 16 (a.toNat / 2 ^ (b.toNat % 16)) := by
  rw [← toNat_alu_srl, BitVec.ofNat_toNat, BitVec.setWidth_eq]

theorem toInt_alu_sra : (alu .sra a b).toInt = a.toInt / 2 ^ (b.toNat % 16) := by
  rw [alu, shiftAmount_eq, BitVec.toInt_sshiftRight, Int.shiftRight_eq_div_pow]
  norm_cast

theorem alu_sra : alu .sra a b = BitVec.ofInt 16 (a.toInt / 2 ^ (b.toNat % 16)) := by
  rw [← toInt_alu_sra, BitVec.ofInt_toInt]

end operations

/-- Settles O25: the numbers of the operations' results. -/
theorem aluComputesEachOperation : Obligations.AluComputesEachOperation := by
  intro a b
  refine ⟨?_, ?_, ?_, ?_, ?_, toNat_alu_srl a b, toInt_alu_sra a b, fun n => ?_, fun n => ?_, fun n => ?_, rfl⟩
  · rw [alu_add, BitVec.toNat_ofNat]
  · rw [alu_sub, BitVec.toNat_ofInt]; omega
  · rw [alu_slt]; split <;> rfl
  · rw [alu_sltu]; split <;> rfl
  · rw [alu_sll, BitVec.toNat_ofNat]
  · exact BitVec.getLsbD_or
  · exact BitVec.getLsbD_and
  · exact BitVec.getLsbD_xor

/-! ### Operations that write their result and go on at `pc + 2` -/

/-- Settles O26: the ALU's sum, difference and comparisons, written by the common register write. -/
theorem addSubtractCompareComplete : Obligations.AddSubtractCompareComplete := by
  intro rd rs2 s hroom
  rw [exec_add, exec_sub, exec_slt, exec_sltu]
  simp only [complete_seqWrite _ _ hroom, alu_add, alu_sub, alu_slt, alu_sltu, and_self]

/-- Settles O27: the ALU's three shifts. -/
theorem registerShiftsComplete : Obligations.RegisterShiftsComplete := by
  intro rd rs2 s hroom
  rw [exec_sll, exec_srl, exec_sra]
  simp only [complete_seqWrite _ _ hroom, alu_sll, alu_srl, alu_sra, and_self]

/-- Settles O28: the ALU's bitwise operations and `passB`. -/
theorem logicAndMoveComplete : Obligations.LogicAndMoveComplete := by
  intro rd rs2 s hroom
  rw [exec_or, exec_and, exec_xor, exec_mv]
  exact ⟨complete_seqWrite _ _ hroom, complete_seqWrite _ _ hroom, complete_seqWrite _ _ hroom,
    complete_seqWrite _ _ hroom⟩

/-- Settles O30: as the register forms, with the immediate as second operand. -/
theorem immediateAddAndCompareComplete : Obligations.ImmediateAddAndCompareComplete := by
  intro rd imm s hroom
  have hsum : alu .add (s.reg rd) imm = BitVec.ofInt 16 ((s.reg rd).toNat + imm.toInt) :=
    (ofInt_rel (s.reg rd) imm).symm
  rw [exec_addi, exec_slti, exec_sltiu]
  simp only [complete_seqWrite _ _ hroom, hsum, alu_slt, alu_sltu, and_self]

/-- A shift amount of four bits is its own remainder modulo 16 (R105). -/
theorem toNat_zeroExtend_mod (shamt : BitVec 4) : (shamt.zeroExtend 16).toNat % 16 = shamt.toNat := by
  have hlt := shamt.isLt
  rw [BitVec.zeroExtend, BitVec.toNat_setWidth]
  omega

/-- Settles O31: as the register forms, with the zero-extended shift amount as second operand. -/
theorem immediateShiftsComplete : Obligations.ImmediateShiftsComplete := by
  intro rd shamt s hroom
  rw [exec_slli, exec_srli, exec_srai]
  simp only [complete_seqWrite _ _ hroom, alu_sll, alu_srl, alu_sra, toNat_zeroExtend_mod, and_self]

/-- Settles O32: as the register forms, with the immediate as second operand. -/
theorem immediateLogicAndLiComplete : Obligations.ImmediateLogicAndLiComplete := by
  intro rd imm s hroom
  rw [exec_ori, exec_andi, exec_xori, exec_li]
  exact ⟨complete_seqWrite _ _ hroom, complete_seqWrite _ _ hroom, complete_seqWrite _ _ hroom,
    complete_seqWrite _ _ hroom⟩

/-- Settles O36: the immediate itself, and the sum of pc and immediate. -/
theorem upperImmediatesComplete : Obligations.UpperImmediatesComplete := by
  intro rd imm s hroom
  rw [exec_lui, exec_auipc, ← alu_add]
  exact ⟨complete_seqWrite _ _ hroom, complete_seqWrite _ _ hroom⟩

end Sys2Proof.Machine
end

section
/-!
Where the pc goes: jumps and branches that complete (41_r_type.md, 43_b_type.md, 46_j_type.md), and every next PC that is
out of range (40_datapath.md R110, R111).
-/

namespace Sys2Proof.Machine

open Sys2Proof.Statements

theorem linkValue_eq (s : State) : linkValue s = BitVec.ofNat 16 (s.pc.toNat + 2) := by
  rw [BitVec.ofNat_add, BitVec.ofNat_toNat, BitVec.setWidth_eq]; rfl

/-! ### Jumps that complete -/

/-- Settles O29: a register value is always a legal next PC, and the commit reads it before the link is written. -/
theorem registerJumpsComplete : Obligations.RegisterJumpsComplete := by
  intro rd rs2 s
  rw [exec_jr, exec_jalr, linkValue_eq]
  exact ⟨complete_abs rfl, complete_abs rfl⟩

/-- Settles O35: the commit of a relative target that is a legal next PC. -/
theorem jumpsComplete : Obligations.JumpsComplete := by
  intro rd off s hlegal
  rw [exec_j, exec_jal, linkValue_eq]
  exact ⟨complete_rel rfl hlegal, complete_rel rfl hlegal⟩

/-! ### Branches -/

/-- An instruction that is a branch follows the branches' common rule, by the comparator's predicate. -/
theorem branchRule_of_exec_eq_branch {i : Instr} {c : Cond} {a b off : Word} {s : State} {taken : Prop}
    (hexec : exec i s = branch c a b off s) (hcond : branchCond c a b = true ↔ taken) :
    BranchRule i taken off s := by
  refine ⟨fun htaken hlegal => ?_, fun hnot hroom => ?_⟩
  · rw [hexec, branch_taken (hcond.2 htaken)]
    exact complete_rel rfl hlegal
  · rw [hexec, branch_notTaken (Bool.eq_false_iff.2 fun h => hnot (hcond.1 h))]
    exact complete_seq rfl hroom

/-- Settles O33: the branches' common rule with the comparator's four equality predicates. -/
theorem equalityBranchesComplete : Obligations.EqualityBranchesComplete := by
  intro rs1 rs2 off s
  have hzero : s.reg rs1 = 0 ↔ (s.reg rs1).toNat = 0 := BitVec.toNat_eq
  exact ⟨branchRule_of_exec_eq_branch (exec_beq ..) (branchCond_eq ..),
    branchRule_of_exec_eq_branch (exec_bne ..) (branchCond_ne ..),
    branchRule_of_exec_eq_branch (exec_bz ..) ((branchCond_zero ..).trans hzero),
    branchRule_of_exec_eq_branch (exec_bnz ..) ((branchCond_nonzero ..).trans (not_congr hzero))⟩

/-- Settles O34: the branches' common rule with the comparator's four order predicates. -/
theorem orderBranchesComplete : Obligations.OrderBranchesComplete := by
  intro rs1 rs2 off s
  exact ⟨branchRule_of_exec_eq_branch (exec_blt ..) (branchCond_lt ..),
    branchRule_of_exec_eq_branch (exec_bge ..) (branchCond_ge ..),
    branchRule_of_exec_eq_branch (exec_bltu ..) (branchCond_ltu ..),
    branchRule_of_exec_eq_branch (exec_bgeu ..) (branchCond_geu ..)⟩

/-! ### A next PC out of range -/

theorem exec_of_fallsThroughOnly {i : Instr} (h : fallsThroughOnly i = true) (s : State) :
    ∃ write, exec i s = complete s { wreg := write } := by
  cases i
  case jr | jalr | beq | bne | bz | bnz | blt | bge | bltu | bgeu | sb | sw | lb | lw | lbu | j | jal | ecall => cases h
  all_goals
    simp only [exec_add, exec_sub, exec_slt, exec_sltu, exec_sll, exec_srl, exec_sra, exec_or, exec_and, exec_xor,
      exec_mv, exec_addi, exec_slti, exec_sltiu, exec_slli, exec_srli, exec_srai, exec_ori, exec_andi, exec_xori,
      exec_li, exec_lui, exec_auipc]
    exact ⟨_, rfl⟩

/-- The comparator decides what `relOffset` says of a branch (R107, R110). -/
theorem exec_of_isBranch {i : Instr} (h : isBranch i = true) (s : State) :
    ∃ c a b off, exec i s = branch c a b off s ∧ relOffset s i = if branchCond c a b then some off else none := by
  cases i
  case beq => exact ⟨_, _, _, _, exec_beq .., by simp only [relOffset, branchCond_eq]⟩
  case bne => exact ⟨_, _, _, _, exec_bne .., by simp only [relOffset, branchCond_ne]⟩
  case bz => exact ⟨_, _, _, _, exec_bz .., by simp only [relOffset, branchCond_zero]⟩
  case bnz => exact ⟨_, _, _, _, exec_bnz .., by simp only [relOffset, branchCond_nonzero]⟩
  case blt => exact ⟨_, _, _, _, exec_blt .., by simp only [relOffset, branchCond_lt]⟩
  case bge => exact ⟨_, _, _, _, exec_bge .., by simp only [relOffset, branchCond_ge]⟩
  case bltu => exact ⟨_, _, _, _, exec_bltu .., by simp only [relOffset, branchCond_ltu]⟩
  case bgeu => exact ⟨_, _, _, _, exec_bgeu .., by simp only [relOffset, branchCond_geu]⟩
  all_goals cases h

theorem exec_of_branch_notTaken {i : Instr} {s : State} (h : isBranch i = true) (hrel : relOffset s i = none) :
    exec i s = complete s { next := .seq } := by
  obtain ⟨c, a, b, off, hexec, hoff⟩ := exec_of_isBranch h s
  have hnot : branchCond c a b = false := by
    rw [hrel] at hoff
    by_contra hcond
    rw [if_pos (by simpa using hcond)] at hoff
    cases hoff
  rw [hexec, branch_notTaken hnot]

/-- Where an instruction selects `Rel`, it is completed there and nowhere else (R110). -/
theorem exec_of_relOffset {i : Instr} {s : State} {off : Word} (h : relOffset s i = some off) :
    ∃ e : Effect, e.next = .rel off ∧ exec i s = complete s e := by
  by_cases hbranch : isBranch i = true
  · obtain ⟨c, a, b, off', hexec, hoff⟩ := exec_of_isBranch hbranch s
    rw [h, eq_comm, Option.ite_none_right_eq_some] at hoff
    obtain ⟨hcond, hoff⟩ := hoff
    cases hoff
    exact ⟨_, rfl, hexec.trans (branch_taken hcond)⟩
  · cases i
    case j => cases h; exact ⟨_, rfl, exec_j ..⟩
    case jal => cases h; exact ⟨_, rfl, exec_jal ..⟩
    case beq | bne | bz | bnz | blt | bge | bltu | bgeu => exact absurd rfl hbranch
    all_goals cases h

/-- Settles O37: an instruction that falls through completes at `pc + 2`, one that selects `Rel` at its target, and each
faults where that integer is out of range. -/
theorem nextPcOutOfRangeFaults : Obligations.NextPcOutOfRangeFaults := by
  intro i s
  refine ⟨?_, fun off hrel hlegal => ?_⟩
  · rintro (hfalls | ⟨hbranch, hrel⟩) hroom
    · obtain ⟨write, hexec⟩ := exec_of_fallsThroughOnly hfalls s
      rw [hexec]
      exact complete_seq_fault rfl hroom
    · rw [exec_of_branch_notTaken hbranch hrel]
      exact complete_seq_fault rfl hroom
  · obtain ⟨e, hnext, hexec⟩ := exec_of_relOffset hrel
    rw [hexec, complete_rel_fault hnext hlegal]

end Sys2Proof.Machine
end

section
/-!
Loads and stores (44_s_type.md, 45_l_type.md): where they complete, where a check of the address faults (20_memory.md
section 3), and where only the next PC does (60_exceptions.md R188).
-/

namespace Sys2Proof.Machine

/-! ### The load/store path by the result of its checks (R48 to R50, R109) -/

section path
variable {rd : Reg} {width : Width} {ea : Int} {value : Memory → Nat → Word} {store : Nat → Store} {s : State} {a : Nat}
  {reason : FaultReason}

theorem loadInto_of_ok (h : checkAccess width ea = .ok a) :
    loadInto rd width ea value s = complete s { wreg := some (rd, value s.mem a) } := by rw [loadInto, h]

theorem loadInto_of_error (h : checkAccess width ea = .error reason) :
    loadInto rd width ea value s = .next (s.faultedWith reason ea) := by rw [loadInto, h]; rfl

theorem storeAt_of_ok (h : checkAccess width ea = .ok a) :
    storeAt width ea store s = complete s { wmem := some (store a) } := by rw [storeAt, h]

theorem storeAt_of_error (h : checkAccess width ea = .error reason) :
    storeAt width ea store s = .next (s.faultedWith reason ea) := by rw [storeAt, h]; rfl

end path

/-! ### An access whose effective address passes its checks -/

section access
variable {r base : Reg} {imm : Word} {s : State} {a : Nat}

theorem checkAccess_byte_of_inBounds (hea : (s.reg base).toNat + imm.toInt = a) (ha : a ≤ 0xFFFF) :
    checkAccess .byte (effectiveAddress (s.reg base) imm) = .ok a := by
  rw [effectiveAddress, hea, checkAccess_byte (by omega), Int.toNat_natCast]

theorem checkAccess_word_of_inBounds (hea : (s.reg base).toNat + imm.toInt = a) (ha : a ≤ 0xFFFF) (heven : a % 2 = 0) :
    checkAccess .word (effectiveAddress (s.reg base) imm) = .ok a := by
  rw [effectiveAddress, hea, checkAccess_word (by omega) (by omega), Int.toNat_natCast]

variable (hea : (s.reg base).toNat + imm.toInt = a) (ha : a ≤ 0xFFFF)
include hea ha

theorem exec_sb_of_inBounds :
    exec (.sb base r imm) s = complete s { wmem := some (.byte a ((s.reg r).extractLsb' 0 8)) } := by
  rw [exec_sb, storeAt_of_ok (checkAccess_byte_of_inBounds hea ha)]

theorem exec_lb_of_inBounds :
    exec (.lb r base imm) s = complete s { wreg := some (r, (s.mem.read a).signExtend 16) } := by
  rw [exec_lb, loadInto_of_ok (checkAccess_byte_of_inBounds hea ha)]

theorem exec_lbu_of_inBounds :
    exec (.lbu r base imm) s = complete s { wreg := some (r, (s.mem.read a).zeroExtend 16) } := by
  rw [exec_lbu, loadInto_of_ok (checkAccess_byte_of_inBounds hea ha)]

theorem exec_sw_of_inBounds (heven : a % 2 = 0) :
    exec (.sw base r imm) s = complete s { wmem := some (.word a (s.reg r)) } := by
  rw [exec_sw, storeAt_of_ok (checkAccess_word_of_inBounds hea ha heven)]

theorem exec_lw_of_inBounds (heven : a % 2 = 0) :
    exec (.lw r base imm) s = complete s { wreg := some (r, s.mem.readWord a) } := by
  rw [exec_lw, loadInto_of_ok (checkAccess_word_of_inBounds hea ha heven)]

end access

/-! ### Accesses that complete -/

theorem Word.lowByte_eq_ofNat (v : Word) : v.extractLsb' 0 8 = BitVec.ofNat 8 v.toNat :=
  BitVec.eq_of_toNat_eq (Word.toNat_lowByte v)

theorem Word.highByte_eq_ofNat (v : Word) : v.extractLsb' 8 8 = BitVec.ofNat 8 (v.toNat / 256) := by
  rw [← Word.toNat_highByte, BitVec.ofNat_toNat, BitVec.setWidth_eq]

theorem signExtend_eq_ofInt_signedField (b : Byte) : b.signExtend 16 = BitVec.ofInt 16 (signedField 8 b.toNat) := by
  rw [← toInt_signExtend_eq_signedField (by decide) (by decide), BitVec.ofInt_toInt]

theorem Memory.readWord_eq_ofNat (m : Memory) (a : Nat) :
    m.readWord a = BitVec.ofNat 16 ((m.read a).toNat + 256 * (m.read (a + 1)).toNat) := by
  rw [← Memory.toNat_readWord, BitVec.ofNat_toNat, BitVec.setWidth_eq]

/-- Settles O38: the commit of the byte, and of the word's low and high byte. -/
theorem storesComplete : Obligations.StoresComplete := by
  intro rs1 rs2 imm s a hea ha hroom
  rw [← Word.lowByte_eq_ofNat, ← Word.highByte_eq_ofNat, exec_sb_of_inBounds hea ha]
  refine ⟨complete_seq rfl hroom, fun heven => ?_⟩
  rw [exec_sw_of_inBounds hea ha heven]
  exact complete_seq rfl hroom

/-- Settles O39: the register write of the extended byte. -/
theorem byteLoadsComplete : Obligations.ByteLoadsComplete := by
  intro rd rs2 imm s a hea ha hroom
  rw [exec_lb_of_inBounds hea ha, exec_lbu_of_inBounds hea ha, ← signExtend_eq_ofInt_signedField, BitVec.ofNat_toNat]
  exact ⟨complete_seqWrite _ _ hroom, complete_seqWrite _ _ hroom⟩

/-- Settles O40: the register write of the word read. -/
theorem wordLoadCompletes : Obligations.WordLoadCompletes := by
  intro rd rs2 imm s a hea ha heven hroom
  rw [exec_lw_of_inBounds hea ha heven, ← Memory.readWord_eq_ofNat]
  exact complete_seqWrite _ _ hroom

/-! ### Accesses that fault -/

/-- Settles O41: the bounds check comes first and takes the integer address. -/
theorem outOfBoundsAccessFaults : Obligations.OutOfBoundsAccessFaults := by
  intro r base imm s ea hea hout
  have heff : effectiveAddress (s.reg base) imm = ea := hea
  have hcheck (width : Width) : checkAccess width ea = .error .boundsError := checkAccess_outOfBounds hout
  rw [exec_lb, exec_lbu, exec_lw, exec_sb, exec_sw, heff]
  simp only [loadInto_of_error (hcheck _), storeAt_of_error (hcheck _), and_self]

/-- Settles O42: in bounds, the alignment check of a word. -/
theorem misalignedWordAccessFaults : Obligations.MisalignedWordAccessFaults := by
  intro r base imm s a hea ha hodd
  have heff : effectiveAddress (s.reg base) imm = a := hea
  have hcheck : checkAccess .word (a : Int) = .error .alignmentError := checkAccess_misaligned (by omega) (by omega)
  rw [exec_lw, exec_sw, heff, loadInto_of_error hcheck, storeAt_of_error hcheck]
  exact ⟨rfl, rfl⟩

/-- Settles O43: an access that passes its checks completes, and completing faults without room for `pc + 2`. -/
theorem loadStoreAtTheTopFaults : Obligations.LoadStoreAtTheTopFaults := by
  intro r base imm s a hea ha hroom i hi
  simp only [List.mem_cons, List.not_mem_nil, or_false] at hi
  rcases hi with (rfl | rfl | rfl) | ⟨heven, rfl | rfl⟩
  · rw [exec_lb_of_inBounds hea ha]; exact complete_seq_fault rfl hroom
  · rw [exec_lbu_of_inBounds hea ha]; exact complete_seq_fault rfl hroom
  · rw [exec_sb_of_inBounds hea ha]; exact complete_seq_fault rfl hroom
  · rw [exec_lw_of_inBounds hea ha heven]; exact complete_seq_fault rfl hroom
  · rw [exec_sw_of_inBounds hea ha heven]; exact complete_seq_fault rfl hroom

/-! ### A word stored and loaded back -/

@[simp] theorem seqWrite_reg (s : State) (rd : Reg) (v : Word) (q : Reg) :
    (s.seqWrite rd v).reg q = if q = rd then v else s.reg q := getElem_setReg s.regs rd q v

/-- Settles O44: the store keeps the registers and leaves room for the load, which reads back the word at the same
address. -/
theorem storeThenLoadRoundTrips : Obligations.StoreThenLoadRoundTrips := by
  intro rd rs1 rs2 imm s a hea ha heven hroom
  let t := commit s { wmem := some (.word a (s.reg rs2)) } (s.pc + 2)
  have hstore : exec (.sw rs1 rs2 imm) s = .next t := by
    rw [exec_sw_of_inBounds hea ha heven]
    exact complete_seq rfl (by rw [State.roomForNext]; omega)
  have hbase : t.reg rs1 = s.reg rs1 := reg_commit_none rfl rs1
  have hroom' : t.roomForNext := by
    have hpc : (s.pc + 2).toNat = (s.pc.toNat + 2) % 65536 := BitVec.toNat_add s.pc 2
    rw [State.roomForNext, commit_pc, hpc]
    omega
  have hload : exec (.lw rd rs1 imm) t = .next (t.seqWrite rd (t.mem.readWord a)) := by
    rw [exec_lw_of_inBounds (by rw [hbase, hea]) ha heven]
    exact complete_seqWrite _ _ hroom'
  refine ⟨t, _, hstore, hload, ?_⟩
  rw [seqWrite_reg, if_pos rfl]
  exact Memory.readWord_writeWord _ _ _

end Sys2Proof.Machine
end

section
/-!
The system call (48_sys.md R155 to R162): what each service answers, with and without room for `pc + 2`.
-/

namespace Sys2Proof.Machine

/-! ### The service a code selects (R155 to R157) -/

section services
variable {svc : BitVec 10} {s : State}

theorem serviceOf_of_ne_exitCode (c : Config) (h : svc ≠ 0x3FF) : serviceOf c svc = c.services.lookup svc := if_neg h

theorem exec_ecall_unmapped (h : serviceOf s.cfg svc = none) :
    exec (.ecall svc) s = .next (s.faultedWith .unknownServiceError svc.toNat) := by
  rw [exec_ecall, execEcall, h]; rfl

theorem exec_ecall_exit (h : serviceOf s.cfg svc = some .exit) : exec (.ecall svc) s = serviceExit s := by
  rw [exec_ecall, execEcall, h]

theorem exec_ecall_printChar (h : serviceOf s.cfg svc = some .printChar) :
    exec (.ecall svc) s = complete s { request := some (.printChar (s.a0v.extractLsb' 0 8)) } := by
  rw [exec_ecall, execEcall, h]; rfl

theorem exec_ecall_printInt (h : serviceOf s.cfg svc = some .printInt) :
    exec (.ecall svc) s = complete s { request := some (.printInt s.a0v.toInt) } := by
  rw [exec_ecall, execEcall, h]; rfl

theorem exec_ecall_readChar (h : serviceOf s.cfg svc = some .readChar) :
    exec (.ecall svc) s = serviceReadChar s := by rw [exec_ecall, execEcall, h]

theorem exec_ecall_printString (h : serviceOf s.cfg svc = some .printString) :
    exec (.ecall svc) s = servicePrintString s := by rw [exec_ecall, execEcall, h]

end services

/-- Settles O45: 0x3FF is Exit whatever the configuration, and its commit keeps the pc. -/
theorem exitServiceHalts : Obligations.ExitServiceHalts := by
  intro s
  exact (exec_ecall_exit (serviceOf_exitCode s.cfg)).trans (complete_stay rfl)

/-- Settles O46: a code that is neither Exit's nor mapped. -/
theorem unknownServiceFaults : Obligations.UnknownServiceFaults := by
  intro svc s hne hlookup
  exact exec_ecall_unmapped ((serviceOf_of_ne_exitCode _ hne).trans hlookup)

/-! ### Output of `a0` (R158, R161) -/

/-- Settles O47: the commit of the request, with the low byte of `a0`. -/
theorem printCharSendsTheLowByte : Obligations.PrintCharSendsTheLowByte := by
  intro svc s hne hlookup hroom
  rw [exec_ecall_printChar ((serviceOf_of_ne_exitCode _ hne).trans hlookup), ← Word.lowByte_eq_ofNat]
  exact complete_seq rfl hroom

/-- Settles O48: the commit of the request, with `a0` as a signed integer of 16 bits. -/
theorem printIntSendsTheSignedValue : Obligations.PrintIntSendsTheSignedValue := by
  intro svc s hne hlookup hroom
  refine ⟨s.a0v.toInt, toInt_eq_signedField (by decide) s.a0v, BitVec.le_toInt s.a0v,
    Int.le_of_lt_add_one (BitVec.toInt_lt (x := s.a0v)), ?_⟩
  rw [exec_ecall_printInt ((serviceOf_of_ne_exitCode _ hne).trans hlookup)]
  exact complete_seq rfl hroom

/-! ### ReadChar (R159) -/

theorem nextReply_of_replies_cons {s : State} {r : Word} {rest : List Word} (h : s.replies = r :: rest) :
    s.nextReply = some r := by rw [State.nextReply, h]

theorem nextReply_of_replies_nil {s : State} (h : s.replies = []) : s.nextReply = Config.hostReply s.draws := by
  rw [State.nextReply, h]

theorem serviceReadChar_of_reply {s : State} {r : Word} (h : s.nextReply = some r) :
    serviceReadChar s =
      complete s { wreg := some (s.cfg.a0, r), request := some .readChar, takesReply := true } := by
  rw [serviceReadChar, h]

/-- Settles O49: the next reply is the first one fixed in advance or, beyond those, the free value. -/
theorem readCharTakesTheHostsReply : Obligations.ReadCharTakesTheHostsReply := by
  intro svc s hne hlookup hroom
  rw [exec_ecall_readChar ((serviceOf_of_ne_exitCode _ hne).trans hlookup)]
  refine ⟨fun r rest hreplies => ?_, fun r hreplies hdraw => ?_, fun hreplies hdraw => ?_⟩
  · rw [serviceReadChar_of_reply (nextReply_of_replies_cons hreplies), complete_seq rfl hroom]
    simp [commit, State.seqWrite, hreplies]
  · rw [serviceReadChar_of_reply ((nextReply_of_replies_nil hreplies).trans hdraw), complete_seq rfl hroom]
    simp [commit, State.seqWrite, hreplies]
  · rw [serviceReadChar, nextReply_of_replies_nil hreplies, hdraw]
    exact if_pos ((inPcRange_seq s).2 hroom)

/-! ### PrintString (R160) -/

/-- The string at `a` whose first zero byte is `n` bytes further on. -/
theorem Memory.readString_of_first_zero {m : Memory} {a n fuel : Nat} (hfuel : n < fuel) (hzero : m.read (a + n) = 0)
    (hfirst : ∀ k, k < n → m.read (a + k) ≠ 0) :
    m.readString a fuel = some ((List.range n).map fun k => m.read (a + k)) := by
  rw [Memory.readString_some]
  simp only [List.length_map, List.length_range, List.getElem_map, List.getElem_range, true_and]
  exact ⟨hfuel, hzero, hfirst⟩

/-- Settles O50: `readString` finds the bytes before the first zero byte, or no zero byte in the address space. -/
theorem printStringSendsTheBytesBeforeTheZero : Obligations.PrintStringSendsTheBytesBeforeTheZero := by
  intro svc s a hne hlookup ha
  have ha0v : s.a0v.toNat = a := ha
  rw [exec_ecall_printString ((serviceOf_of_ne_exitCode _ hne).trans hlookup), servicePrintString, ha0v]
  refine ⟨fun n hn hzero hfirst => ?_, fun hnone => ?_⟩
  · rw [Memory.readString_of_first_zero (by omega) hzero hfirst]
    exact ⟨fun hroom => complete_seq rfl hroom, fun hroom => complete_seq_fault rfl hroom⟩
  · rw [Memory.readString_none.2 fun k hk => hnone (a + k) (by omega) (by omega)]
    rfl

/-! ### No room for `pc + 2` (R162, R188) -/

theorem serviceReadChar_of_noRoom {s : State} (h : ¬ s.roomForNext) :
    serviceReadChar s = .next (s.faultedWith .boundsError ((s.pc.toNat : Int) + 2)) := by
  rcases serviceReadChar_cases s with ⟨r, -, heq⟩ | ⟨-, hroom, -⟩ | ⟨-, -, heq⟩
  · rw [heq]
    exact complete_seq_fault rfl h
  · exact absurd ((inPcRange_seq s).1 hroom) h
  · exact heq

/-- Settles O51: each of the three services goes through the range check before anything is handed over. -/
theorem serviceAtTheTopSendsNothing : Obligations.ServiceAtTheTopSendsNothing := by
  intro svc s hne hroom hlookup
  rw [← serviceOf_of_ne_exitCode _ hne] at hlookup
  rcases hlookup with h | h | h
  · rw [exec_ecall_printChar h]
    exact complete_seq_fault rfl hroom
  · rw [exec_ecall_readChar h, serviceReadChar_of_noRoom hroom]
  · rw [exec_ecall_printInt h]
    exact complete_seq_fault rfl hroom

end Sys2Proof.Machine
end

section
/-!
What an instruction leaves unchanged (10_state.md R19, 20_memory.md R52, 48_sys.md R155): one frame lemma per part of the
state, drawn from all that an instruction can do, and the frames of the instruction classes.
-/

namespace Sys2Proof.Machine

/-! ### One frame lemma per part of the state -/

section parts
variable {i : Instr} {s t : State}

/-- An instruction writes no register but the listed one (R19). -/
theorem exec_sameRegsExcept (h : exec i s = .next t) : sameRegsExcept (destRegs s.cfg i) s t := by
  intro r hr
  rcases exec_next_cases h with ⟨reason, addr, rfl, -⟩ | ⟨e, -, rfl, hreg, -⟩
  · exact raise_reg ..
  · cases hw : e.wreg with
    | none => exact reg_commit_none hw r
    | some write =>
      have hne : r ≠ write.1 := fun heq => hr (heq ▸ hreg write.1 write.2 hw)
      rw [reg_commit_some hw, if_neg hne]

/-- An instruction keeps the memory, or is a store whose bytes are those at its effective address (R52). -/
theorem exec_mem_cases (h : exec i s = .next t) :
    t.mem = s.mem ∨ ∃ (rs1 rs2 : Reg) (imm : Word) (a : Nat), (a : Int) = effectiveAddress (s.reg rs1) imm ∧
      ((i = .sb rs1 rs2 imm ∧ a < 65536 ∧ ∃ v, t.mem = s.mem.write a v) ∨
       (i = .sw rs1 rs2 imm ∧ a + 1 < 65536 ∧ ∃ v, t.mem = s.mem.writeWord a v)) := by
  rcases exec_next_cases h with ⟨reason, addr, rfl, -⟩ | ⟨e, -, rfl, -, hstore, -⟩
  · exact .inl rfl
  · cases hw : e.wmem with
    | none => exact .inl (by rw [commit_mem, hw])
    | some st =>
      obtain ⟨rs1, rs2, imm, a, hea, ⟨hi, ha, v, rfl⟩ | ⟨hi, ha, v, rfl⟩⟩ := hstore st hw
      · exact .inr ⟨rs1, rs2, imm, a, hea, .inl ⟨hi, ha, v, by rw [commit_mem, hw]; rfl⟩⟩
      · exact .inr ⟨rs1, rs2, imm, a, hea, .inr ⟨hi, ha, v, by rw [commit_mem, hw]; rfl⟩⟩

theorem exec_mem_eq (h : exec i s = .next t) (hsb : ∀ rs1 rs2 imm, i ≠ .sb rs1 rs2 imm)
    (hsw : ∀ rs1 rs2 imm, i ≠ .sw rs1 rs2 imm) : t.mem = s.mem := by
  rcases exec_mem_cases h with hmem | ⟨rs1, rs2, imm, a, -, ⟨rfl, -⟩ | ⟨rfl, -⟩⟩
  · exact hmem
  · exact absurd rfl (hsb rs1 rs2 imm)
  · exact absurd rfl (hsw rs1 rs2 imm)

theorem exec_cfg (h : exec i s = .next t) : t.cfg = s.cfg := by
  rcases exec_next_cases h with ⟨reason, addr, rfl, -⟩ | ⟨e, -, rfl, -⟩ <;> rfl

/-- Only an ecall exchanges anything with the host, or changes the status without a fault (R36, R157). -/
theorem exec_frame_of_ne_ecall (h : exec i s = .next t) (hne : ∀ svc, i ≠ .ecall svc) :
    sameHostSide s t ∧ statusKeptOrFaulted s t := by
  rcases exec_next_cases h with ⟨reason, addr, rfl, -⟩ | ⟨e, -, rfl, -, -, hecall, -⟩
  · exact ⟨⟨rfl, rfl, rfl, rfl⟩, .inr ⟨_, rfl⟩⟩
  · have hnone : ¬ (e.halt = true ∨ e.request ≠ none ∨ e.takesReply = true) := fun hany => by
      obtain ⟨svc, hsvc, -⟩ := hecall hany
      exact hne svc hsvc
    simp only [not_or, Bool.not_eq_true, not_not] at hnone
    obtain ⟨hhalt, hrequest, htakes⟩ := hnone
    simp [sameHostSide, statusKeptOrFaulted, commit_requests, hhalt, hrequest, htakes]

end parts

theorem sameBytesExcept_of_mem_eq {s t : State} (h : t.mem = s.mem) : sameBytesExcept [] s t := by
  intro a _
  rw [h]

/-! ### The frames of the instruction classes -/

/-- Settles O20: the frame of the registers; each instruction lists one register or none. -/
theorem registersWrittenAreTheListedOnes : Obligations.RegistersWrittenAreTheListedOnes := by
  intro i s t h
  refine ⟨?_, exec_sameRegsExcept h⟩
  cases i
  case ecall svc => rw [destRegs]; split <;> simp
  all_goals simp [destRegs]

/-- Settles O52: the class holds no store and no ecall. -/
theorem registerOnlyInstructionsFrame : Obligations.RegisterOnlyInstructionsFrame := by
  intro i s t hclass h
  have hmem : t.mem = s.mem := exec_mem_eq h (by rintro _ _ _ rfl; cases hclass) (by rintro _ _ _ rfl; cases hclass)
  exact ⟨exec_sameRegsExcept h, sameBytesExcept_of_mem_eq hmem,
    exec_frame_of_ne_ecall h (by rintro _ rfl; cases hclass)⟩

theorem destRegs_of_redirectsOnly {i : Instr} (h : redirectsOnly i = true) (c : Config) : destRegs c i = [] := by
  cases i
  case jr | beq | bne | bz | bnz | blt | bge | bltu | bgeu | j => rfl
  all_goals cases h

/-- Settles O53: the class holds no store and no ecall, and lists no register. -/
theorem redirectingInstructionsFrame : Obligations.RedirectingInstructionsFrame := by
  intro i s t hclass h
  have hregs := exec_sameRegsExcept h
  rw [destRegs_of_redirectsOnly hclass] at hregs
  have hmem : t.mem = s.mem := exec_mem_eq h (by rintro _ _ _ rfl; cases hclass) (by rintro _ _ _ rfl; cases hclass)
  exact ⟨hregs, sameBytesExcept_of_mem_eq hmem, exec_frame_of_ne_ecall h (by rintro _ rfl; cases hclass)⟩

theorem sameBytesExcept_sb {rs1 rs2 : Reg} {imm : Word} {s t : State} {a : Nat}
    (hea : effectiveAddress (s.reg rs1) imm = a) (h : exec (.sb rs1 rs2 imm) s = .next t) : sameBytesExcept [a] s t := by
  intro x hx
  rw [List.mem_singleton] at hx
  rcases exec_mem_cases h with hmem | ⟨_, _, _, b, hb, ⟨heq, -, v, hmem⟩ | ⟨heq, -⟩⟩
  · rw [hmem]
  · cases heq
    obtain rfl : b = a := by omega
    rw [hmem, Memory.read_write, if_neg hx]
  · cases heq

theorem sameBytesExcept_sw {rs1 rs2 : Reg} {imm : Word} {s t : State} {a : Nat}
    (hea : effectiveAddress (s.reg rs1) imm = a) (h : exec (.sw rs1 rs2 imm) s = .next t) :
    sameBytesExcept [a, a + 1] s t := by
  intro x hx
  simp only [List.mem_cons, List.not_mem_nil, or_false, not_or] at hx
  rcases exec_mem_cases h with hmem | ⟨_, _, _, b, hb, ⟨heq, -⟩ | ⟨heq, -, v, hmem⟩⟩
  · rw [hmem]
  · cases heq
  · cases heq
    obtain rfl : b = a := by omega
    rw [hmem, Memory.read_writeWord, if_neg hx.1, if_neg hx.2]

/-- Settles O54: a store lists no register, and its bytes are those at its effective address. -/
theorem storesFrame : Obligations.StoresFrame := by
  intro rs1 rs2 imm s t a hea
  exact ⟨fun h => ⟨exec_sameRegsExcept h, sameBytesExcept_sb hea h, exec_frame_of_ne_ecall h (by rintro _ ⟨⟩)⟩,
    fun h => ⟨exec_sameRegsExcept h, sameBytesExcept_sw hea h, exec_frame_of_ne_ecall h (by rintro _ ⟨⟩)⟩⟩

/-- Settles O55: a load lists its `rd`, and is no store and no ecall. -/
theorem loadsFrame : Obligations.LoadsFrame := by
  intro rd rs2 imm s t i hi h
  simp only [List.mem_cons, List.not_mem_nil, or_false] at hi
  have hregs : destRegs s.cfg i = [rd] := by rcases hi with rfl | rfl | rfl <;> rfl
  have hmem : t.mem = s.mem := by
    rcases hi with rfl | rfl | rfl <;> exact exec_mem_eq h (by rintro _ _ _ ⟨⟩) (by rintro _ _ _ ⟨⟩)
  refine ⟨hregs ▸ exec_sameRegsExcept h, sameBytesExcept_of_mem_eq hmem, exec_frame_of_ne_ecall h ?_⟩
  rintro svc rfl
  simp at hi

/-- Only ReadChar uses up a reply, and only Exit halts (R157, R159). -/
theorem exec_ecall_hostSide {svc : BitVec 10} {s t : State} (h : exec (.ecall svc) s = .next t) :
    (serviceOf s.cfg svc ≠ some .readChar → t.replies = s.replies ∧ t.draws = s.draws) ∧
    (serviceOf s.cfg svc ≠ some .exit → statusKeptOrFaulted s t) := by
  rcases exec_next_cases h with ⟨reason, addr, rfl, -⟩ | ⟨e, -, rfl, -, -, hecall, -⟩
  · exact ⟨fun _ => ⟨rfl, rfl⟩, fun _ => .inr ⟨_, rfl⟩⟩
  · refine ⟨fun hne => ?_, fun hne => .inl ?_⟩
    · have htakes : e.takesReply = false := by
        by_contra htrue
        rw [Bool.not_eq_false] at htrue
        obtain ⟨_, ⟨⟩, -, hread⟩ := hecall (.inr (.inr htrue))
        exact hne (hread htrue)
      simp [htakes]
    · have hhalt : e.halt = false := by
        by_contra htrue
        rw [Bool.not_eq_false] at htrue
        obtain ⟨_, ⟨⟩, hexit, -⟩ := hecall (.inl htrue)
        exact hne (hexit htrue)
      simp [hhalt]

/-- Settles O56: ecall is no store, and its service says whether a reply is used up and whether it halts. -/
theorem ecallFrame : Obligations.EcallFrame := by
  intro svc s t h
  have hmem : t.mem = s.mem := exec_mem_eq h (by rintro _ _ _ ⟨⟩) (by rintro _ _ _ ⟨⟩)
  exact ⟨exec_sameRegsExcept h, sameBytesExcept_of_mem_eq hmem, exec_cfg h, exec_ecall_hostSide h⟩

end Sys2Proof.Machine
end

section
/-!
The step (40_datapath.md R94 to R100): what it runs, what a fault leaves behind and records (60_exceptions.md R183 to
R190), what it hands to the host, and the invariant that every step keeps.
-/

namespace Sys2Proof.Machine

/-! ### What a step does, by what it fetches -/

/-- Settles O10: the fetched word is the little-endian one, and the fetch checks pass. -/
theorem stepRunsTheDecodedInstruction : Obligations.StepRunsTheDecodedInstruction := by
  intro s i hrun heven hallowed hdec
  rw [← Memory.readWord_eq_ofNat] at hdec
  exact step_of_run ((fetchDecode_run_iff s i).2 ⟨hrun, heven, hallowed, hdec⟩)

/-- Settles O11: a machine that is not Running fetches nothing. -/
theorem stoppedMachineStaysPut : Obligations.StoppedMachineStaysPut := by
  intro s hstopped
  exact step_of_idle ((fetchDecode_idle_iff s).2 hstopped)

theorem fetchDecode_of_forbidden {s : State} (hrun : s.status = .running) (heven : s.pc.toNat % 2 = 0)
    (hforbidden : s.pc ∈ s.cfg.execForbidden) : fetchDecode s = .trap .boundsError s.pc.toNat := by
  have hnotOdd : ¬ s.pc.toNat % 2 = 1 := by omega
  rw [fetchDecode, hrun]
  simp only [if_neg hnotOdd, if_pos hforbidden]

/-- Settles O13: the trap of the second fetch check. -/
theorem forbiddenFetchFaults : Obligations.ForbiddenFetchFaults := by
  intro s hrun heven hforbidden
  rw [step_of_trap (fetchDecode_of_forbidden hrun heven hforbidden), raise_eq_faultedWith]

/-- Settles O21: a step that executes nothing keeps the memory, and so does an instruction other than a store. -/
theorem memoryChangesOnlyByStores : Obligations.MemoryChangesOnlyByStores := by
  intro s t h hchanged
  rcases step_next_cases h with ⟨-, rfl⟩ | ⟨reason, addr, -, rfl⟩ | ⟨i, hfetch, hexec⟩
  · exact absurd rfl hchanged
  · exact absurd rfl hchanged
  · rcases exec_mem_cases hexec with hsame | ⟨rs1, rs2, imm, a, -, ⟨rfl, -⟩ | ⟨rfl, -⟩⟩
    · exact absurd hsame hchanged
    · exact ⟨rs1, rs2, imm, .inl hfetch⟩
    · exact ⟨rs1, rs2, imm, .inr hfetch⟩

/-- Settles O22: a store that ends Running was committed, and the fetch reads its word back. -/
theorem storeIsSeenByTheNextFetch : Obligations.StoreIsSeenByTheNextFetch := by
  intro rs1 rs2 imm s t h hrun hea
  rw [exec_sw, hea] at h
  rcases storeAt_next.1 h with ⟨a, hok, hcomplete⟩ | ⟨reason, -, hraise⟩
  · have ha : a = t.pc.toNat := by
      have haddr := (checkAccess_ok hok).1
      omega
    rcases complete_next_cases hcomplete with ⟨-, hcommit⟩ | ⟨addr, rfl, -⟩
    · have hmem : t.mem = s.mem.writeWord a (s.reg rs2) := by rw [hcommit]; rfl
      rw [fetchWord, hmem, ← ha, Memory.readWord_writeWord]
    · cases hrun
  · rw [hraise] at hrun
    cases hrun

/-! ### A fault leaves everything but the status (R100, R190) -/

/-- An instruction started Running that ends Faulted raised that fault: a commit leaves the status Running or Halted. -/
theorem exec_faulted {i : Instr} {s t : State} {f : FaultRecord} (hrun : s.status = .running)
    (h : exec i s = .next t) (hf : t.status = .faulted f) : t = raise s f.reason f.faultAddr := by
  rcases exec_next_cases h with ⟨reason, addr, rfl, -⟩ | ⟨e, -, rfl, -⟩
  · cases hf; rfl
  · rw [commit_status, hrun] at hf
    split at hf <;> cases hf

theorem step_faulted {s t : State} {f : FaultRecord} (hrun : s.status = .running) (h : step s = .next t)
    (hf : t.status = .faulted f) : t = raise s f.reason f.faultAddr := by
  rcases step_next_cases h with ⟨hstopped, -⟩ | ⟨reason, addr, -, rfl⟩ | ⟨i, -, hexec⟩
  · exact absurd hrun hstopped
  · cases hf; rfl
  · exact exec_faulted hrun hexec hf

/-- Settles O15: the fault is the one raised, whose record names the pc. -/
theorem faultingStepCommitsNothing : Obligations.FaultingStepCommitsNothing := by
  intro s t f hrun h hf
  obtain rfl := step_faulted hrun h hf
  exact ⟨(congrArg FaultRecord.faultPc (Status.faulted.inj hf)).symm, raise_eq_faultedWith ..⟩

/-! ### What a step hands to the host (R36, R162) -/

theorem commit_requests_eq_append (s : State) (e : Effect) (pc : Word) :
    (commit s e pc).requests = s.requests ++ e.request.toList := by
  rw [commit_requests]
  cases e.request <;> simp

theorem step_cfg {s t : State} (h : step s = .next t) : t.cfg = s.cfg := by
  rcases step_next_cases h with ⟨-, rfl⟩ | ⟨reason, addr, -, rfl⟩ | ⟨i, -, hexec⟩
  · rfl
  · rfl
  · exact exec_cfg hexec

theorem exec_requests {i : Instr} {s t : State} (h : exec i s = .next t) :
    ∃ sent : Option Request, t.requests = s.requests ++ sent.toList := by
  rcases exec_next_cases h with ⟨reason, addr, rfl, -⟩ | ⟨e, -, rfl, -⟩
  · exact ⟨none, by simp⟩
  · exact ⟨e.request, commit_requests_eq_append ..⟩

theorem step_requests {s t : State} (h : step s = .next t) :
    ∃ sent : Option Request, t.requests = s.requests ++ sent.toList := by
  rcases step_next_cases h with ⟨-, rfl⟩ | ⟨reason, addr, -, rfl⟩ | ⟨i, -, hexec⟩
  · exact ⟨none, by simp⟩
  · exact ⟨none, by simp⟩
  · exact exec_requests hexec

/-- Settles O18: an effect holds at most one request, and a raised fault keeps the record as it was. -/
theorem stepHandsOverAtMostOneRequest : Obligations.StepHandsOverAtMostOneRequest := by
  intro s t h
  obtain ⟨sent, hsent⟩ := step_requests h
  refine ⟨step_cfg h, sent.toList, hsent, by cases sent <;> simp, ?_⟩
  rintro hrun ⟨f, hf⟩
  have hkept : t.requests = s.requests := by rw [step_faulted hrun h hf, raise_requests]
  rw [hkept] at hsent
  exact List.self_eq_append_right.1 hsent

/-! ### Every step answers a state, but for an unanswered ReadChar (R159) -/

theorem loadInto_exists (rd : Reg) (width : Width) (ea : Int) (value : Memory → Nat → Word) (s : State) :
    ∃ t, loadInto rd width ea value s = .next t := by
  unfold loadInto
  split
  · exact complete_exists ..
  · exact ⟨_, rfl⟩

theorem storeAt_exists (width : Width) (ea : Int) (store : Nat → Store) (s : State) :
    ∃ t, storeAt width ea store s = .next t := by
  unfold storeAt
  split
  · exact complete_exists ..
  · exact ⟨_, rfl⟩

theorem exec_exists {i : Instr} (hne : ∀ svc, i ≠ .ecall svc) (s : State) : ∃ t, exec i s = .next t := by
  by_cases hfalls : fallsThroughOnly i = true
  · obtain ⟨write, hexec⟩ := exec_of_fallsThroughOnly hfalls s
    exact hexec ▸ complete_exists ..
  by_cases hbranch : isBranch i = true
  · obtain ⟨c, a, b, off, hexec, -⟩ := exec_of_isBranch hbranch s
    exact hexec ▸ complete_exists ..
  cases i
  case jr | jalr | j | jal => simp only [exec_jr, exec_jalr, exec_j, exec_jal]; exact complete_exists ..
  case sb | sw => simp only [exec_sb, exec_sw]; exact storeAt_exists ..
  case lb | lw | lbu => simp only [exec_lb, exec_lw, exec_lbu]; exact loadInto_exists ..
  case ecall svc => exact absurd rfl (hne svc)
  case beq | bne | bz | bnz | blt | bge | bltu | bgeu => exact absurd rfl hbranch
  all_goals exact absurd rfl hfalls

theorem exec_ecall_exists_or_stuck (svc : BitVec 10) (s : State) :
    (∃ t, exec (.ecall svc) s = .next t) ∨
    (exec (.ecall svc) s = .fault .hostNeverReplies ∧ serviceOf s.cfg svc = some .readChar ∧ s.nextReply = none) := by
  rw [exec_ecall]
  rcases execEcall_eq svc s with ⟨-, heq⟩ | ⟨-, heq⟩ | ⟨-, heq⟩ | ⟨hread, heq⟩ | ⟨-, heq⟩ | ⟨-, heq⟩ <;> rw [heq]
  · exact .inl ⟨_, rfl⟩
  · exact .inl (complete_exists ..)
  · exact .inl (complete_exists ..)
  · rcases serviceReadChar_cases s with ⟨r, -, heq⟩ | ⟨hnone, -, heq⟩ | ⟨-, -, heq⟩ <;> rw [heq]
    · exact .inl (complete_exists ..)
    · exact .inr ⟨rfl, hread, hnone⟩
    · exact .inl ⟨_, rfl⟩
  · rcases servicePrintString_cases s with ⟨bytes, -, heq⟩ | ⟨-, heq⟩ <;> rw [heq]
    · exact .inl (complete_exists ..)
    · exact .inl ⟨_, rfl⟩
  · exact .inl (complete_exists ..)

theorem nextReply_eq_none {s : State} (h : s.nextReply = none) :
    s.replies = [] ∧ Config.hostReply s.draws = none := by
  cases hreplies : s.replies with
  | nil => exact ⟨rfl, (nextReply_of_replies_nil hreplies).symm.trans h⟩
  | cons r rest => rw [nextReply_of_replies_cons hreplies] at h; cases h

theorem lookup_of_serviceOf {c : Config} {svc : BitVec 10} {service : Service} (h : serviceOf c svc = some service)
    (hne : service ≠ .exit) : c.services.lookup svc = some service := by
  by_cases hexit : svc = exitCode
  · rw [hexit, serviceOf_exitCode] at h
    cases h
    exact absurd rfl hne
  · rwa [serviceOf_of_ne_exitCode c hexit] at h

/-- Settles O19: a trap and every instruction but ecall answer a state; of the services only ReadChar waits. -/
theorem onlyUnansweredReadCharStops : Obligations.OnlyUnansweredReadCharStops := by
  intro s
  cases hfetch : fetchDecode s with
  | idle => exact .inl ⟨s, step_of_idle hfetch⟩
  | trap reason addr => exact .inl ⟨_, step_of_trap hfetch⟩
  | run i =>
    rw [step_of_run hfetch]
    by_cases hne : ∀ svc, i ≠ .ecall svc
    · exact .inl (exec_exists hne s)
    · simp only [not_forall, not_not] at hne
      obtain ⟨svc, rfl⟩ := hne
      rcases exec_ecall_exists_or_stuck svc s with hnext | ⟨hstuck, hread, hnone⟩
      · exact .inl hnext
      · obtain ⟨hreplies, hdraw⟩ := nextReply_eq_none hnone
        exact .inr ⟨hstuck, hreplies, hdraw, svc, rfl, lookup_of_serviceOf hread (by decide)⟩

/-! ### The invariant (R30, R41, R183) -/

/-- Settles O17: the memory lists no byte, and the status is Running. -/
theorem resetMeetsInvariant : Obligations.ResetMeetsInvariant := ⟨reset_mem_wf, by rintro f ⟨⟩⟩

/-- A fault keeps the invariant if its record is true of the state it is raised in, which it leaves but for the status. -/
theorem raise_inv {s : State} {reason : FaultReason} {addr : Int} (hmem : s.mem.wf)
    (hsound : recordSound s ⟨reason, s.pc, addr⟩) : (raise s reason addr).Inv := by
  refine ⟨hmem, fun f hf => ?_⟩
  cases hf
  exact hsound

theorem recordSound_of_trap {s : State} {reason : FaultReason} {addr : Int}
    (h : fetchDecode s = .trap reason addr) : recordSound s ⟨reason, s.pc, addr⟩ := by
  have hpc := s.pc.isLt
  refine ⟨rfl, ?_⟩
  rcases fetchDecode_trap h with ⟨-, ⟨rfl, rfl, hodd⟩ | ⟨rfl, rfl, -, hforbidden⟩ | ⟨rfl, rfl, -, -, e, herr⟩⟩
  · dsimp only
    omega
  · exact .inr (.inr ⟨hforbidden, rfl⟩)
  · exact ⟨rfl, decode_error herr ▸ herr⟩

theorem exec_mem_wf {i : Instr} {s t : State} (hmem : s.mem.wf) (h : exec i s = .next t) : t.mem.wf := by
  rcases exec_mem_cases h with hsame | ⟨rs1, rs2, imm, a, -, ⟨-, ha, v, hstore⟩ | ⟨-, ha, v, hstore⟩⟩
  · rwa [hsame]
  · rw [hstore]; exact Memory.wf_write hmem ha v
  · rw [hstore]; exact Memory.wf_writeWord hmem ha v

theorem exec_inv {i : Instr} {s t : State} (hrun : s.status = .running) (hmem : s.mem.wf) (h : exec i s = .next t) :
    t.Inv := by
  rcases exec_next_cases h with ⟨reason, addr, rfl, hcause⟩ | ⟨e, -, hcommit, -⟩
  · refine raise_inv hmem ⟨rfl, ?_⟩
    rcases hcause with ⟨rfl, hout⟩ | ⟨rfl, hodd⟩ | ⟨rfl, hunmapped⟩
    · exact hout.imp_right .inl
    · exact hodd
    · exact hunmapped
  · refine ⟨exec_mem_wf hmem h, fun f hf => ?_⟩
    rw [hcommit, commit_status, hrun] at hf
    split at hf <;> cases hf

/-- Settles O16: a stopped machine stays as it is; a trap and an instruction's fault record what the state shows, and
stores keep the memory canonical. -/
theorem stepKeepsInvariant : Obligations.StepKeepsInvariant := by
  intro s t hinv h
  rcases step_next_cases h with ⟨-, rfl⟩ | ⟨reason, addr, htrap, rfl⟩ | ⟨i, hfetch, hexec⟩
  · exact hinv
  · exact raise_inv hinv.1 (recordSound_of_trap htrap)
  · exact exec_inv ((fetchDecode_run_iff s i).1 hfetch).1 hinv.1 hexec

end Sys2Proof.Machine
end

section
/-!
The disassembler's targets (49_disassembler.md R163 to R182), and loading (70_reset_and_hazards.md R203, R205).
-/

namespace Sys2Proof.Machine

/-! ### The printed line (R164 to R166, R180) -/

theorem wordText_of_ok {table : FunctTable} {w pc : Word} {i : Instr} (h : decode table w = .ok i) :
    wordText table w pc = asmText pc i := by rw [wordText, h]

theorem wordText_of_error {table : FunctTable} {w pc : Word} {e : DecodeError} (h : decode table w = .error e) :
    wordText table w pc = ".word 0x".toList ++ hex4 w.toNat := by rw [wordText, h]

/-- The last operand printed for an instruction that selects `Rel` is its target (R174, R177). -/
theorem operandTexts_getLast_of_relOffset {i : Instr} {s : State} {off : Word} (h : relOffset s i = some off) (pc : Word) :
    (operandTexts pc i).getLast? = some (relTarget pc off) := by
  cases i
  case j | jal => cases h; rfl
  case beq | bne | bz | bnz | blt | bge | bltu | bgeu =>
    obtain ⟨-, hoff⟩ := Option.ite_none_right_eq_some.1 h
    cases hoff
    rfl
  all_goals cases h

/-- An instruction that selects `Rel` and leaves the machine Running leaves the target in the pc (R110, R111). -/
theorem toNat_pc_of_relOffset {i : Instr} {s t : State} {off : Word} (hrel : relOffset s i = some off)
    (h : exec i s = .next t) (hrun : t.status = .running) : (t.pc.toNat : Int) = pcMux s.pc (.rel off) := by
  obtain ⟨e, hnext, hexec⟩ := exec_of_relOffset hrel
  rw [hexec] at h
  rcases complete_next_cases h with ⟨hrange, rfl⟩ | ⟨addr, rfl, -⟩
  · rw [← hnext]
    exact toNat_ofInt_of_inPcRange hrange
  · cases hrun

/-- Settles O57: the disassembler and the step take the target from the same PC mux. -/
theorem disassembledTargetIsTheNextPc : Obligations.DisassembledTargetIsTheNextPc := by
  refine ⟨fun s t i off hfetch hrel h hrun => ?_, fun table w pc hillegal => ?_⟩
  · obtain ⟨-, -, -, hdec⟩ := (fetchDecode_run_iff s i).1 hfetch
    rw [step_of_run hfetch] at h
    refine ⟨?_, ?_⟩
    · rw [operandTexts_getLast_of_relOffset hrel, relTarget, toNat_pc_of_relOffset hrel h hrun]
    · rw [disassembleText, wordText_of_ok hdec]
  · cases hdec : decode table w with
    | ok i => exact absurd hdec (hillegal i)
    | error e =>
      rw [disassembleText, wordText_of_error hdec]
      simp

/-- Settles O58: the disassembler evaluated on each word. -/
theorem disassemblySamples : Obligations.DisassemblySamples := by
  unfold Obligations.DisassemblySamples
  decide

/-! ### Loading an image (R205) -/

/-- Settles O60: the bytes of the image cut at 64K are written from 0 up; nothing else of the state is touched but the pc
and the status. -/
theorem loadPlacesTheImage : Obligations.LoadPlacesTheImage := by
  intro s bytes
  refine ⟨fun a b hbyte ha => ?_, fun a ha => ?_, fun r => rfl, rfl, rfl, rfl, ⟨rfl, rfl, rfl, rfl⟩, ⟨rfl, rfl, rfl, rfl⟩⟩
  · obtain ⟨hlen, rfl⟩ := List.getElem?_eq_some_iff.1 hbyte
    rw [load_mem, Memory.read_writeBytes, dif_pos (by simp; omega), List.getElem_take]
    rfl
  · rw [load_mem, Memory.read_writeBytes, dif_neg (by simp; omega)]

end Sys2Proof.Machine
end
